-- ==== Sys2Proof/Word.lean ====
section
/-! DEFINITION. The machine's words: bytes, command words, and the group of eight words that the chain value H
and the working variables are. -/

namespace Sys2Proof

/-- One byte. -/
abbrev Byte := BitVec 8

/-- One command word, 32 bits (`30_encoding.md` R300). -/
abbrev CmdWord := BitVec 32

/-- Eight words of one width: the chain value H[0..7] (64-bit words, `10_state.md` R101), an initial state P.IV, and
the working variables (a, b, c, d, e, f, g, h), which start as words 0 to 7 of the chain value (`42_compress.md` R600). -/
structure Words8 (w : Nat) where
  a : BitVec w
  b : BitVec w
  c : BitVec w
  d : BitVec w
  e : BitVec w
  f : BitVec w
  g : BitVec w
  h : BitVec w
  deriving DecidableEq, Repr

namespace Words8

/-- Eight zero words. -/
def zero (w : Nat) : Words8 w := ⟨0, 0, 0, 0, 0, 0, 0, 0⟩

/-- Word j, `H[j]` (`00_scope.md` R13). -/
def get {w : Nat} (x : Words8 w) : Fin 8 → BitVec w
  | 0 => x.a
  | 1 => x.b
  | 2 => x.c
  | 3 => x.d
  | 4 => x.e
  | 5 => x.f
  | 6 => x.g
  | 7 => x.h

/-- The same function on each of the eight words. -/
def map {v w : Nat} (f : BitVec v → BitVec w) (x : Words8 v) : Words8 w :=
  ⟨f x.a, f x.b, f x.c, f x.d, f x.e, f x.f, f x.g, f x.h⟩

/-- Word-by-word sum, each modulo 2^w (`00_scope.md` R11). -/
def add {w : Nat} (x y : Words8 w) : Words8 w :=
  ⟨x.a + y.a, x.b + y.b, x.c + y.c, x.d + y.d, x.e + y.e, x.f + y.f, x.g + y.g, x.h + y.h⟩

/-- The words in order, word 0 first. -/
def toList {w : Nat} (x : Words8 w) : List (BitVec w) :=
  [x.a, x.b, x.c, x.d, x.e, x.f, x.g, x.h]

end Words8

end Sys2Proof
end

