-- ==== Sys2Proof/Config.lean ====
section
/-! DEFINITION. What is fixed for this hardware (`00_scope.md` R9) and the one parameter the spec leaves open. -/

namespace Sys2Proof

/-- The variants present, codes 0 to 4 (`00_scope.md` R8, R9). -/
inductive Variant where
  | sha224
  | sha256
  | sha384
  | sha512
  | sha512_256
  deriving DecidableEq, Repr

/-- Physical size of the block buffer in bytes (`20_memory.md` R200). -/
def Config.bufferBytes : Nat := 128

/-- `CmdLatency(command, PHASE, VAR, compressions)`, the duration of a command, OPEN (`70_reset_and_hazards.md` R1220).
Its arguments are all that R1222 lets it depend on: the 4-bit opcode, the codes of PHASE and VAR, and the number of
compressions the command performs. It has no body, so no proof can see a value of it, and no step reads it. -/
opaque Config.cmdLatency (op : BitVec 4) (phase : BitVec 2) (var : BitVec 4) (compressions : Nat) : Nat

end Sys2Proof
end

