-- ==== Sys2Proof/Syntax.lean ====
section
/-! DEFINITION. The commands (`30_encoding.md` R306), and above them the assembler's statements (R310, R311). -/

namespace Sys2Proof

/-- The six commands of `opcode_table.json`. Operands have the width of their field (R303, R304), so every term is a
command the hardware can be given; an operand value without a meaning (INIT 5 to 15, an RDBYTE index past the digest)
is well formed and faults when it executes (R309). -/
inductive Instr where
  /-- INIT var, format V (`43_buffer.md` R701). -/
  | init (var : BitVec 4)
  /-- ABSORB b, format B (`43_buffer.md` R705). -/
  | absorb (b : BitVec 8)
  /-- FINAL, format Z (`44_finalize.md` R801). -/
  | final
  /-- RDBYTE i, format B (`45_digest.md` R901). -/
  | rdbyte (i : BitVec 8)
  /-- SIZE, format Z (`46_facade.md` R1000). -/
  | size
  /-- RDSTAT, format Z (`46_facade.md` R1002). -/
  | rdstat
  deriving DecidableEq, Repr

/-- The variant operand of the assembler: a name, or `#<n>` (`30_encoding.md` R310). -/
inductive VariantArg where
  | named (v : Variant)
  | numbered (n : Nat)
  deriving DecidableEq, Repr

/-- One assembler statement: the six commands and the pseudo-instructions ABSORBS, DIGEST and HASH
(`30_encoding.md` R310, R311). Operands are the numbers as written, not yet checked against their ranges. -/
inductive Source where
  | init (v : VariantArg)
  | absorb (b : Nat)
  | final
  | rdbyte (i : Nat)
  | size
  | rdstat
  | absorbs (bytes : List Nat)
  | digest
  | hash (v : VariantArg) (bytes : List Nat)
  deriving DecidableEq, Repr

end Sys2Proof
end

