-- ==== Sys2Proof/WellFormed.lean ====
section
/-! DEFINITION. Which command words are well formed (`30_encoding.md` R306, R308), and which assembler statements are
(R310: an operand outside its range is an assembly error). Every term of `Instr` is well formed by its operands' types. -/

namespace Sys2Proof

/-- One row of the opcode map: `(w and mask) = match` (`30_encoding.md` R306). -/
structure OpcodeRow where
  pattern : CmdWord
  mask : CmdWord
  deriving DecidableEq, Repr

/-- A word is the row's command exactly when its masked bits are the row's pattern (R306). -/
def OpcodeRow.selects (r : OpcodeRow) (w : CmdWord) : Bool := w &&& r.mask == r.pattern

/-- The opcode map: INIT, ABSORB, FINAL, RDBYTE, SIZE, RDSTAT (R306). -/
def opcodeMap : List OpcodeRow :=
  [⟨0x10000000, 0xFFFFFFF0⟩, ⟨0x20000000, 0xFFFFFF00⟩, ⟨0x30000000, 0xFFFFFFFF⟩,
   ⟨0x40000000, 0xFFFFFF00⟩, ⟨0x50000000, 0xFFFFFFFF⟩, ⟨0x60000000, 0xFFFFFFFF⟩]

/-- A well-formed command word: one of the six commands (R306). -/
def wordWellFormed (w : CmdWord) : Bool := opcodeMap.any (·.selects w)

/-- A variant operand is a name, or `#<n>` with 0 ≤ n ≤ 15 (R310). -/
def VariantArg.wellFormed : VariantArg → Bool
  | .named _ => true
  | .numbered n => n < 16

/-- Every operand of an assembler statement is in its range (R310). -/
def Source.wellFormed : Source → Bool
  | .init v => v.wellFormed
  | .absorb b => b < 256
  | .final => true
  | .rdbyte i => i < 256
  | .size => true
  | .rdstat => true
  | .absorbs bytes => bytes.all (· < 256)
  | .digest => true
  | .hash v bytes => v.wellFormed && bytes.all (· < 256)

end Sys2Proof
end

