-- ==== Sys2Proof/Decode.lean ====
section
/-! DEFINITION. Decoding of a command word, total on all 32-bit words (`30_encoding.md` R307), and the encoder (R306). -/

namespace Sys2Proof

/-- Why a word is Illegal (`30_encoding.md` R308). Both reasons are the one cause ILLEGAL_CMD when the word is executed
(`60_exceptions.md` R1101). R307 has one Illegal; its two names are the model's DESIGN CHOICE (log entry 15). -/
inductive Illegal where
  /-- op is 0x0 or 0x7 to 0xF. -/
  | reservedOpcode
  /-- An assigned op with a nonzero bit in its format's `zero` field. -/
  | nonzeroZeroField
  deriving DecidableEq, Repr

/-- `op` = cmd[31:28] (R301). -/
def opField (cmd : CmdWord) : BitVec 4 := cmd.extractLsb' 28 4

/-- `var` = cmd[3:0] (R303). -/
def varField (cmd : CmdWord) : BitVec 4 := cmd.extractLsb' 0 4

/-- `imm8` = cmd[7:0] (R304). -/
def imm8Field (cmd : CmdWord) : BitVec 8 := cmd.extractLsb' 0 8

/-- The `zero` field of format Z, cmd[27:0] (R302). -/
def zeroFieldZ (cmd : CmdWord) : BitVec 28 := cmd.extractLsb' 0 28

/-- The `zero` field of format V, cmd[27:4] (R302). -/
def zeroFieldV (cmd : CmdWord) : BitVec 24 := cmd.extractLsb' 4 24

/-- The `zero` field of format B, cmd[27:8] (R302). -/
def zeroFieldB (cmd : CmdWord) : BitVec 20 := cmd.extractLsb' 8 20

/-- `Decode(cmd)`: a command, or Illegal with its reason (R307). -/
def decode (cmd : CmdWord) : Except Illegal Instr :=
  if opField cmd = 0x1 then
    if zeroFieldV cmd = 0 then .ok (.init (varField cmd)) else .error .nonzeroZeroField
  else if opField cmd = 0x2 then
    if zeroFieldB cmd = 0 then .ok (.absorb (imm8Field cmd)) else .error .nonzeroZeroField
  else if opField cmd = 0x3 then
    if zeroFieldZ cmd = 0 then .ok .final else .error .nonzeroZeroField
  else if opField cmd = 0x4 then
    if zeroFieldB cmd = 0 then .ok (.rdbyte (imm8Field cmd)) else .error .nonzeroZeroField
  else if opField cmd = 0x5 then
    if zeroFieldZ cmd = 0 then .ok .size else .error .nonzeroZeroField
  else if opField cmd = 0x6 then
    if zeroFieldZ cmd = 0 then .ok .rdstat else .error .nonzeroZeroField
  else .error .reservedOpcode

/-- The opcode of a command (R306). -/
def opcodeOf : Instr → BitVec 4
  | .init _ => 0x1
  | .absorb _ => 0x2
  | .final => 0x3
  | .rdbyte _ => 0x4
  | .size => 0x5
  | .rdstat => 0x6

/-- The word of a command, its fields side by side as the formats V, B and Z lay them out (R302). -/
def encode : Instr → CmdWord
  | .init var => (0x1 : BitVec 4) ++ (0 : BitVec 24) ++ var
  | .absorb b => (0x2 : BitVec 4) ++ (0 : BitVec 20) ++ b
  | .final => (0x3 : BitVec 4) ++ (0 : BitVec 28)
  | .rdbyte i => (0x4 : BitVec 4) ++ (0 : BitVec 20) ++ i
  | .size => (0x5 : BitVec 4) ++ (0 : BitVec 28)
  | .rdstat => (0x6 : BitVec 4) ++ (0 : BitVec 28)

/-- The command the decoder reads from a word given as a number, of which the low nbits bits count
(`opcode_table.json` numbers bit 0 as the least significant bit of the 32-bit word). -/
def decodeTableWord (nbits w : Nat) : Option Instr :=
  if w % 2 ^ nbits < 2 ^ 32 then
    match decode (BitVec.ofNat 32 (w % 2 ^ nbits)) with
    | .ok i => some i
    | .error _ => none
  else none

end Sys2Proof
end

