-- ==== Sys2Proof/Machine/Rom.lean ====
section
/-! DEFINITION. The parameter ROM: one record per variant code 0 to 4 (`10_state.md` R120), with the spec's own tables
R121 to R125. The values are marked by the spec as general knowledge, not of its source (log entry 8). -/

namespace Sys2Proof.Machine

/-- The 4-bit variant code (`00_scope.md` R8). -/
def variantCode : Variant → BitVec 4
  | .sha224 => 0
  | .sha256 => 1
  | .sha384 => 2
  | .sha512 => 3
  | .sha512_256 => 4

/-- The six amounts of a record: P.c[0..5] or P.k[0..5] (`10_state.md` R124, R125). -/
structure Amounts where
  n0 : Nat
  n1 : Nat
  n2 : Nat
  n3 : Nat
  n4 : Nat
  n5 : Nat
  deriving DecidableEq, Repr

/-- A parameter record P (`00_scope.md` R5). -/
structure Params where
  /-- P.wb, word_bits. -/
  wb : Nat
  /-- P.R, rounds_number. -/
  rounds : Nat
  /-- P.L, length_field_bits. -/
  lenBits : Nat
  /-- P.ow, output_word_count. -/
  ow : Nat
  /-- P.dl, digest_length_bytes. -/
  dl : Nat
  /-- P.K[0..P.R-1]. -/
  K : List (BitVec wb)
  /-- P.IV[0..7]. -/
  IV : Words8 wb
  /-- P.c[0..5]. -/
  c : Amounts
  /-- P.k[0..5]. -/
  k : Amounts
  deriving DecidableEq, Repr

/-- P.w, word bytes (`00_scope.md` R6). -/
def Params.wordBytes (P : Params) : Nat := P.wb / 8

/-- P.B, block bytes: block_bits / 8 with block_bits = 16 × P.wb (R5, R6). -/
def Params.blockBytes (P : Params) : Nat := 16 * P.wb / 8

/-- P.Lb, length-field bytes (R6). -/
def Params.lenBytes (P : Params) : Nat := P.lenBits / 8

/-- The invariants of a parameter record (`00_scope.md` R7, with equality for the digest length: conflict C1). -/
def Params.wellFormed (P : Params) : Bool :=
  P.ow ≤ 8 && P.dl == P.ow * P.wordBytes && (16 * P.wb) % 8 == 0 && P.lenBits + 8 ≤ 16 * P.wb

/-- K32, the 64 round constants of the 32-bit-word family (`10_state.md` R121). -/
def k32 : List (BitVec 32) :=
  [0x428a2f98, 0x71374491, 0xb5c0fbcf, 0xe9b5dba5, 0x3956c25b, 0x59f111f1, 0x923f82a4, 0xab1c5ed5] ++
  [0xd807aa98, 0x12835b01, 0x243185be, 0x550c7dc3, 0x72be5d74, 0x80deb1fe, 0x9bdc06a7, 0xc19bf174] ++
  [0xe49b69c1, 0xefbe4786, 0x0fc19dc6, 0x240ca1cc, 0x2de92c6f, 0x4a7484aa, 0x5cb0a9dc, 0x76f988da] ++
  [0x983e5152, 0xa831c66d, 0xb00327c8, 0xbf597fc7, 0xc6e00bf3, 0xd5a79147, 0x06ca6351, 0x14292967] ++
  [0x27b70a85, 0x2e1b2138, 0x4d2c6dfc, 0x53380d13, 0x650a7354, 0x766a0abb, 0x81c2c92e, 0x92722c85] ++
  [0xa2bfe8a1, 0xa81a664b, 0xc24b8b70, 0xc76c51a3, 0xd192e819, 0xd6990624, 0xf40e3585, 0x106aa070] ++
  [0x19a4c116, 0x1e376c08, 0x2748774c, 0x34b0bcb5, 0x391c0cb3, 0x4ed8aa4a, 0x5b9cca4f, 0x682e6ff3] ++
  [0x748f82ee, 0x78a5636f, 0x84c87814, 0x8cc70208, 0x90befffa, 0xa4506ceb, 0xbef9a3f7, 0xc67178f2]

/-- K64, the 80 round constants of the 64-bit-word family (`10_state.md` R122). -/
def k64 : List (BitVec 64) :=
  [0x428a2f98d728ae22, 0x7137449123ef65cd, 0xb5c0fbcfec4d3b2f, 0xe9b5dba58189dbbc] ++
  [0x3956c25bf348b538, 0x59f111f1b605d019, 0x923f82a4af194f9b, 0xab1c5ed5da6d8118] ++
  [0xd807aa98a3030242, 0x12835b0145706fbe, 0x243185be4ee4b28c, 0x550c7dc3d5ffb4e2] ++
  [0x72be5d74f27b896f, 0x80deb1fe3b1696b1, 0x9bdc06a725c71235, 0xc19bf174cf692694] ++
  [0xe49b69c19ef14ad2, 0xefbe4786384f25e3, 0x0fc19dc68b8cd5b5, 0x240ca1cc77ac9c65] ++
  [0x2de92c6f592b0275, 0x4a7484aa6ea6e483, 0x5cb0a9dcbd41fbd4, 0x76f988da831153b5] ++
  [0x983e5152ee66dfab, 0xa831c66d2db43210, 0xb00327c898fb213f, 0xbf597fc7beef0ee4] ++
  [0xc6e00bf33da88fc2, 0xd5a79147930aa725, 0x06ca6351e003826f, 0x142929670a0e6e70] ++
  [0x27b70a8546d22ffc, 0x2e1b21385c26c926, 0x4d2c6dfc5ac42aed, 0x53380d139d95b3df] ++
  [0x650a73548baf63de, 0x766a0abb3c77b2a8, 0x81c2c92e47edaee6, 0x92722c851482353b] ++
  [0xa2bfe8a14cf10364, 0xa81a664bbc423001, 0xc24b8b70d0f89791, 0xc76c51a30654be30] ++
  [0xd192e819d6ef5218, 0xd69906245565a910, 0xf40e35855771202a, 0x106aa07032bbd1b8] ++
  [0x19a4c116b8d2d0c8, 0x1e376c085141ab53, 0x2748774cdf8eeb99, 0x34b0bcb5e19b48a8] ++
  [0x391c0cb3c5c95a63, 0x4ed8aa4ae3418acb, 0x5b9cca4f7763e373, 0x682e6ff3d6b2b8a3] ++
  [0x748f82ee5defb2fc, 0x78a5636f43172f60, 0x84c87814a1f0ab72, 0x8cc702081a6439ec] ++
  [0x90befffa23631e28, 0xa4506cebde82bde9, 0xbef9a3f7b2c67915, 0xc67178f2e372532b] ++
  [0xca273eceea26619c, 0xd186b8c721c0c207, 0xeada7dd6cde0eb1e, 0xf57d4f7fee6ed178] ++
  [0x06f067aa72176fba, 0x0a637dc5a2c898a6, 0x113f9804bef90dae, 0x1b710b35131c471b] ++
  [0x28db77f523047d84, 0x32caab7b40c72493, 0x3c9ebe0a15c9bebc, 0x431d67c49c100d4c] ++
  [0x4cc5d4becb3e42b6, 0x597f299cfc657e2a, 0x5fcb6fab3ad6faec, 0x6c44198c4a475817]

/-- C32 and C64, the schedule constants (`10_state.md` R124). -/
def c32 : Amounts := ⟨7, 18, 3, 17, 19, 10⟩

@[inherit_doc c32]
def c64 : Amounts := ⟨1, 8, 7, 19, 61, 6⟩

/-- S32 and S64, the compression constants (`10_state.md` R125). -/
def s32 : Amounts := ⟨6, 11, 25, 2, 13, 22⟩

@[inherit_doc s32]
def s64 : Amounts := ⟨14, 18, 41, 28, 34, 39⟩

/-- P.IV of SHA-224, code 0 (`10_state.md` R123). -/
def ivSha224 : Words8 32 :=
  ⟨0xc1059ed8, 0x367cd507, 0x3070dd17, 0xf70e5939,
   0xffc00b31, 0x68581511, 0x64f98fa7, 0xbefa4fa4⟩

/-- P.IV of SHA-256, code 1 (`10_state.md` R123). -/
def ivSha256 : Words8 32 :=
  ⟨0x6a09e667, 0xbb67ae85, 0x3c6ef372, 0xa54ff53a,
   0x510e527f, 0x9b05688c, 0x1f83d9ab, 0x5be0cd19⟩

/-- P.IV of SHA-384, code 2 (`10_state.md` R123). -/
def ivSha384 : Words8 64 :=
  ⟨0xcbbb9d5dc1059ed8, 0x629a292a367cd507, 0x9159015a3070dd17, 0x152fecd8f70e5939,
   0x67332667ffc00b31, 0x8eb44a8768581511, 0xdb0c2e0d64f98fa7, 0x47b5481dbefa4fa4⟩

/-- P.IV of SHA-512, code 3 (`10_state.md` R123). -/
def ivSha512 : Words8 64 :=
  ⟨0x6a09e667f3bcc908, 0xbb67ae8584caa73b, 0x3c6ef372fe94f82b, 0xa54ff53a5f1d36f1,
   0x510e527fade682d1, 0x9b05688c2b3e6c1f, 0x1f83d9abfb41bd6b, 0x5be0cd19137e2179⟩

/-- P.IV of SHA-512/256, code 4 (`10_state.md` R123). -/
def ivSha512_256 : Words8 64 :=
  ⟨0x22312194fc2bf72c, 0x9f555fa3c84c64c2, 0x2393b86b6f53b151, 0x963877195940eabd,
   0x96283ee2a88effe3, 0xbe5e1e2553863992, 0x2b0199fc2c85b8aa, 0x0eb72ddc81c52ca2⟩

/-- The ROM: the record of each variant (`10_state.md` R120, `00_scope.md` R8). -/
def rom : Variant → Params
  | .sha224 => ⟨32, 64, 64, 7, 28, k32, ivSha224, c32, s32⟩
  | .sha256 => ⟨32, 64, 64, 8, 32, k32, ivSha256, c32, s32⟩
  | .sha384 => ⟨64, 80, 128, 6, 48, k64, ivSha384, c64, s64⟩
  | .sha512 => ⟨64, 80, 128, 8, 64, k64, ivSha512, c64, s64⟩
  | .sha512_256 => ⟨64, 80, 128, 4, 32, k64, ivSha512_256, c64, s64⟩

end Sys2Proof.Machine
end

