-- ==== Sys2Proof/Machine/Operands.lean ====
section
/-! DEFINITION. The two operand forms, var and imm8 (`30_encoding.md` R303, R304). There are no register operands and
no addressing modes (R305). -/

namespace Sys2Proof.Machine

/-- The variant a 4-bit code selects; codes 5 to 15 have no ROM record (`00_scope.md` R8, `30_encoding.md` R303). -/
def variantOfCode (var : BitVec 4) : Option Variant :=
  if var = 0 then some .sha224
  else if var = 1 then some .sha256
  else if var = 2 then some .sha384
  else if var = 3 then some .sha512
  else if var = 4 then some .sha512_256
  else none

/-- imm8 as a number 0 to 255 (`30_encoding.md` R304): the digest byte index of RDBYTE. -/
def imm8Index (imm8 : BitVec 8) : Nat := imm8.toNat

end Sys2Proof.Machine
end

