-- ==== Sys2Proof/Machine/Codec.lean ====
section
/-! DEFINITION. The endian-word codec and the bit primitives of `40_codec.md`. -/

namespace Sys2Proof.Machine

/-- `BytesToWordBE(s)`: the sum of s[j] × 2^(8 (n - 1 - j)), the byte of lowest index most significant (R400). -/
def bytesToWordBE : List Byte → Nat
  | [] => 0
  | b :: s => b.toNat * 2 ^ (8 * s.length) + bytesToWordBE s

/-- `WordToBytesBE(x, n)`: byte j is (x >> (8 (n - 1 - j))) and 0xFF (R401). -/
def wordToBytesBE (x n : Nat) : List Byte :=
  (List.range n).map fun j => BitVec.ofNat 8 (x >>> (8 * (n - 1 - j)))

/-- `rotr(x, n)` for 0 < n < w (R405, `00_scope.md` R12). The ROM never asks for another amount. -/
def rotr {w : Nat} (x : BitVec w) (n : Nat) : BitVec w := (x >>> n) ||| (x <<< (w - n))

/-- `shr(x, n)` for 0 < n < w: zeros enter at the top (R406). -/
def shr {w : Nat} (x : BitVec w) (n : Nat) : BitVec w := x >>> n

/-- `Ch(e, f, g)` (R407). -/
def ch {w : Nat} (e f g : BitVec w) : BitVec w := (e &&& f) ^^^ (~~~e &&& g)

/-- `Maj(a, b, c)` (R408). -/
def maj {w : Nat} (a b c : BitVec w) : BitVec w := (a &&& b) ^^^ (a &&& c) ^^^ (b &&& c)

/-- Three rotations xored: the form of `BigSigma1` and `BigSigma0` (R409, R410). -/
def bigSigma {w : Nat} (n0 n1 n2 : Nat) (x : BitVec w) : BitVec w := rotr x n0 ^^^ rotr x n1 ^^^ rotr x n2

/-- Two rotations and a shift xored: the form of `SmallSigma0` and `SmallSigma1` (R411, R412). -/
def smallSigma {w : Nat} (n0 n1 n2 : Nat) (x : BitVec w) : BitVec w := rotr x n0 ^^^ rotr x n1 ^^^ shr x n2

end Sys2Proof.Machine
end

