-- ==== Sys2Proof/Machine/Schedule.lean ====
section
/-! DEFINITION. The message-schedule expander of `41_schedule.md`. -/

namespace Sys2Proof.Machine

/-- `SmallSigma0(x)` with P.c[0..2] (`40_codec.md` R411). -/
def smallSigma0 (P : Params) (x : BitVec P.wb) : BitVec P.wb := smallSigma P.c.n0 P.c.n1 P.c.n2 x

/-- `SmallSigma1(x)` with P.c[3..5] (`40_codec.md` R412). -/
def smallSigma1 (P : Params) (x : BitVec P.wb) : BitVec P.wb := smallSigma P.c.n3 P.c.n4 P.c.n5 x

/-- Word j of a block: bytes j × P.w to j × P.w + P.w - 1, big-endian (R500, `20_memory.md` R204). -/
def blockWord (P : Params) (blk : List Byte) (j : Nat) : BitVec P.wb :=
  BitVec.ofNat P.wb (bytesToWordBE ((blk.drop (j * P.wordBytes)).take P.wordBytes))

/-- W[0..15] (R500). -/
def inputWords (P : Params) (blk : List Byte) : List (BitVec P.wb) := (List.range 16).map (blockWord P blk)

/-- The value of W[i] from the words before it, for i ≥ 16 (R501). -/
def nextWord (P : Params) (W : List (BitVec P.wb)) (i : Nat) : BitVec P.wb :=
  W.getD (i - 16) 0 + smallSigma0 P (W.getD (i - 15) 0) + W.getD (i - 7) 0 + smallSigma1 P (W.getD (i - 2) 0)

/-- `ExpandSchedule(blk)`: W[0..P.R-1] (R500, R501). -/
def expandSchedule (P : Params) (blk : List Byte) : List (BitVec P.wb) :=
  (List.range' 16 (P.rounds - 16)).foldl (fun W i => W ++ [nextWord P W i]) (inputWords P blk)

end Sys2Proof.Machine
end

