-- ==== Sys2Proof/Machine/Compress.lean ====
section
/-! DEFINITION. The round-function compressor of `42_compress.md`, as a function of the chain value and the block. -/

namespace Sys2Proof.Machine

/-- `BigSigma1(e)` with P.k[0..2] (`40_codec.md` R409). -/
def bigSigma1 (P : Params) (e : BitVec P.wb) : BitVec P.wb := bigSigma P.k.n0 P.k.n1 P.k.n2 e

/-- `BigSigma0(a)` with P.k[3..5] (`40_codec.md` R410). -/
def bigSigma0 (P : Params) (a : BitVec P.wb) : BitVec P.wb := bigSigma P.k.n3 P.k.n4 P.k.n5 a

/-- One round on the working variables, with P.K[i] and W[i]; the last assignment is simultaneous (R600). -/
def round (P : Params) (v : Words8 P.wb) (K W : BitVec P.wb) : Words8 P.wb :=
  match v with
  | ⟨a, b, c, d, e, f, g, h⟩ =>
    let temp1 := h + bigSigma1 P e + ch e f g + K + W
    let temp2 := bigSigma0 P a + maj a b c
    ⟨temp1 + temp2, a, b, c, d + temp1, e, f, g⟩

/-- `Rounds(st, W)`: round i with P.K[i] and W[i], for i from 0 to P.R - 1 (R600). -/
def rounds (P : Params) (st : Words8 P.wb) (W : List (BitVec P.wb)) : Words8 P.wb :=
  (List.range P.rounds).foldl (fun v i => round P v (P.K.getD i 0) (W.getD i 0)) st

/-- `Compress(st, W)`: the feed-forward adds the start value to the working variables (R601). -/
def compress (P : Params) (st : Words8 P.wb) (W : List (BitVec P.wb)) : Words8 P.wb := st.add (rounds P st W)

/-- The chain value after a compression of blk under a variant: H[j][P.wb-1:0] go in, the results are zero-extended to
64 bits (R610, `10_state.md` R103). -/
def nextChain (var : Variant) (h : Words8 64) (blk : List Byte) : Words8 64 :=
  (compress (rom var) (h.map (·.setWidth (rom var).wb)) (expandSchedule (rom var) blk)).map (·.setWidth 64)

end Sys2Proof.Machine
end

