-- ==== Sys2Proof/Machine/State.lean ====
section
/-! DEFINITION. The machine's state, exactly the list of `10_state.md` R101 and the host's pending actions, its value
after reset (`70_reset_and_hazards.md` R1200), and the reasons a step can stop. -/

namespace Sys2Proof.Machine

/-- PHASE, the life-cycle phase (`10_state.md` R102). -/
inductive Phase where
  | unconfigured
  | absorbing
  | finalized
  | faulted
  deriving DecidableEq, Repr

/-- CAUSE, the fault cause (`60_exceptions.md` R1100); codes 8 to 15 are reserved and never written. -/
inductive Cause where
  | none
  | illegalCmd
  | badVariant
  | notConfigured
  | absorbAfterFinal
  | finalTwice
  | digestNotReady
  | digestIndex
  deriving DecidableEq, Repr

/-- What the host can do to the core: write one word to the command port, or assert reset (`20_memory.md` R201). -/
inductive HostAction where
  | write (cmd : CmdWord)
  | reset
  deriving DecidableEq, Repr

/-- The block buffer BLK as (index, byte) pairs, indices rising, no pair whose byte is 0x00: an index without a pair
reads as 0x00, the reset contents (`70_reset_and_hazards.md` R1200). -/
abbrev Memory := List Host.Cell

/-- The architectural state (`10_state.md` R101), and `port`, the model's own field: the host's actions that the core
has not taken yet, oldest first (`10_state.md` R110, `20_memory.md` R213; log entry 1). -/
structure State where
  /-- PHASE (R102). -/
  phase : Phase
  /-- VAR, the variant code of the context (R101). -/
  var : Variant
  /-- H[0..7], the chain value (R103). -/
  h : Words8 64
  /-- TL, the count of bytes absorbed (R104). -/
  tl : BitVec 128
  /-- BLK[0..127], the block buffer (R105). -/
  blk : Memory
  /-- BU, the count of valid bytes in BLK (R105). -/
  bu : BitVec 8
  /-- CAUSE (`60_exceptions.md` R1100). -/
  cause : Cause
  /-- RES, the result register (R106). -/
  res : BitVec 128
  /-- The host's pending actions, oldest first. -/
  port : List HostAction
  deriving DecidableEq, Repr

/-- Why a step stops the model. The spec's own faults are none of these: they are next states (`60_exceptions.md`
R1110). -/
inductive Fault where
  /-- Raised by MemRead and MemWrite for an index of BLK above 127, which does not exist (`20_memory.md` R200). Only a
  state with BU ≥ 128 reaches it, and no run has one (R105): safe. -/
  | noSuchBlockByte
  deriving DecidableEq, Repr

/-- Why an instruction has no meaning in the model. -/
inductive Refusal where
  /-- Raised by exec for an instruction of the opcode table without a meaning, by its mnemonic; no arm does: safe. -/
  | notModelled (mnemonic : String)
  deriving DecidableEq, Repr

/-- The state after reset and power-on (`70_reset_and_hazards.md` R1200); the host has issued nothing. -/
def State.reset : State where
  phase := .unconfigured
  var := .sha224
  h := Words8.zero 64
  tl := 0
  blk := []
  bu := 0
  cause := .none
  res := 0
  port := []

end Sys2Proof.Machine
end

