-- ==== Sys2Proof/Machine/Ops.lean ====
section
/-! DEFINITION. The shared operations: the block buffer's MemRead and MemWrite, the writes of RES and H, the fault
entry, and reset, which is the only way back from it. -/

namespace Sys2Proof.Machine

/-- The canonical form of the block buffer: indices rising and below 128, no pair that says what an index without a
pair reads as. -/
abbrev Memory.wf (m : Memory) : Prop :=
  (m.map Prod.fst).Pairwise (· < ·) ∧ ∀ c ∈ m, c.1 < Config.bufferBytes ∧ c.2 ≠ 0

/-- BLK[i] <- b, in canonical form. -/
def writeByte (i : Nat) (b : Byte) : Memory → Memory
  | [] => if b = 0 then [] else [(i, b)]
  | (j, c) :: m =>
    if i < j then if b = 0 then (j, c) :: m else (i, b) :: (j, c) :: m
    else if i = j then if b = 0 then m else (i, b) :: m
    else (j, c) :: writeByte i b m

/-- BLK[i]; an index without a pair reads as 0x00 (`70_reset_and_hazards.md` R1200). -/
def readByte (i : Nat) : Memory → Byte
  | [] => 0
  | (j, c) :: m => if i = j then c else readByte i m

/-- Bytes of a sequence into BLK at rising indices from i. -/
def writeBytes (i : Nat) : List Byte → Memory → Memory
  | [], m => m
  | b :: s, m => writeBytes (i + 1) s (writeByte i b m)

/-- `MemRead(i, n)`: BLK[i..i+n-1] (`00_scope.md` R13); indices above 127 do not exist (`20_memory.md` R200). -/
def memRead (i n : Nat) (m : Memory) : Except Fault (List Byte) :=
  if i + n ≤ Config.bufferBytes then .ok ((List.range n).map fun j => readByte (i + j) m) else .error .noSuchBlockByte

/-- `MemWrite(i, n, s)` with n the length of s (`00_scope.md` R13); indices above 127 do not exist (`20_memory.md`
R200). -/
def memWrite (i : Nat) (s : List Byte) (m : Memory) : Except Fault Memory :=
  if i + s.length ≤ Config.bufferBytes then .ok (writeBytes i s m) else .error .noSuchBlockByte

/-- All 128 bytes of BLK 0x00 (`43_buffer.md` R701, `70_reset_and_hazards.md` R1200). -/
def clearedBuffer : Memory := []

/-- `RES <- v`: every write of RES writes all 128 bits, zero-extended (`10_state.md` R106). -/
def writeRes {w : Nat} (v : BitVec w) (s : State) : State := { s with res := v.setWidth 128 }

/-- `raise Fault(cause)`: CAUSE and PHASE are written and nothing else; there is no vector and no saved state
(`60_exceptions.md` R1110). -/
def raise (cause : Cause) (s : State) : State := { s with cause := cause, phase := .faulted }

/-- Reset: every element of the state at its reset value; the only exit from FAULTED (`70_reset_and_hazards.md` R1200,
`60_exceptions.md` R1121). The host's later actions are the host's and stay. -/
def resetCore (s : State) : State := { State.reset with port := s.port }

/-- `CompressBlock(blk)`: writes H and nothing else (`42_compress.md` R610). -/
def compressBlock (blk : List Byte) (s : State) : State := { s with h := nextChain s.var s.h blk }

/-- `CompressBlock(MemRead(0, P.B))`. -/
def compressBuffer (s : State) : Except Fault State := do
  let blk ← memRead 0 (rom s.var).blockBytes s.blk
  return compressBlock blk s

/-- The end of a command: its next state, or the model's fault. -/
def finish : Except Fault State → Host.Outcome State Fault Refusal
  | .ok s => .next s
  | .error f => .fault f

end Sys2Proof.Machine
end

