-- ==== Sys2Proof/Machine/Buffer.lean ====
section
/-! DEFINITION. The block-buffer controller's commands, INIT and ABSORB (`43_buffer.md`). In FAULTED a command is
ignored (`60_exceptions.md` R1111). -/

namespace Sys2Proof.Machine

/-- A fresh context of a variant: all that INIT writes (R701, `10_state.md` R112). -/
def freshContext (v : Variant) (s : State) : State :=
  { s with
    var := v
    h := (rom v).IV.map (·.setWidth 64)
    tl := 0
    bu := 0
    blk := clearedBuffer
    phase := .absorbing }

/-- INIT var (R701): legal in every phase but FAULTED; BAD_VARIANT for a code without a ROM record. -/
def execInit (var : BitVec 4) (s : State) : Host.Outcome State Fault Refusal :=
  match s.phase with
  | .faulted => .next s
  | .unconfigured | .absorbing | .finalized =>
    match variantOfCode var with
    | none => .next (raise .badVariant s)
    | some v => .next (freshContext v s)

/-- TL after one more message byte: (TL + 1) mod 2^P.L (R705, `10_state.md` R104). -/
def countByte (v : Variant) (tl : BitVec 128) : BitVec 128 := BitVec.ofNat 128 ((tl.toNat + 1) % 2 ^ (rom v).lenBits)

/-- If the block became exactly full, compress it and set BU to 0 (R705). -/
def compressIfFull (s : State) : Except Fault State :=
  if s.bu.toNat = (rom s.var).blockBytes then do
    let s ← compressBuffer s
    return { s with bu := 0 }
  else .ok s

/-- One message byte into the buffer, in ABSORBING (R705). -/
def acceptByte (b : Byte) (s : State) : Except Fault State := do
  let blk ← memWrite s.bu.toNat [b] s.blk
  compressIfFull { s with blk := blk, bu := s.bu + 1, tl := countByte s.var s.tl }

/-- ABSORB b (R705): legal in ABSORBING only. -/
def execAbsorb (b : BitVec 8) (s : State) : Host.Outcome State Fault Refusal :=
  match s.phase with
  | .faulted => .next s
  | .unconfigured => .next (raise .notConfigured s)
  | .finalized => .next (raise .absorbAfterFinal s)
  | .absorbing => finish (acceptByte b s)

end Sys2Proof.Machine
end

