-- ==== Sys2Proof/Machine/Digest.lean ====
section
/-! DEFINITION. The digest output serializer, RDBYTE (`45_digest.md`). -/

namespace Sys2Proof.Machine

/-- `Digest()` of a chain value under a variant: the first P.ow words, each as P.w big-endian bytes (R900). -/
def digestOf (v : Variant) (h : Words8 64) : List Byte :=
  (h.toList.take (rom v).ow).flatMap fun x => wordToBytesBE (x.setWidth (rom v).wb).toNat (rom v).wordBytes

/-- `Digest()`, a function of H and VAR (R900). -/
def digest (s : State) : List Byte := digestOf s.var s.h

/-- Byte k of word j of H, counted from the most significant: (H[j][P.wb-1:0] >> (8 (P.w - 1 - k))) and 0xFF (R901).
RDBYTE asks only for i < P.dl, so j < P.ow ≤ 8. -/
def digestByte (s : State) (i : Nat) : BitVec (rom s.var).wb :=
  let P := rom s.var
  let j := i / P.wordBytes
  let k := i % P.wordBytes
  ((s.h.get (Fin.ofNat 8 j)).setWidth P.wb >>> (8 * (P.wordBytes - 1 - k))) &&& 0xFF

/-- RDBYTE i (R901): legal in FINALIZED only; ignored in FAULTED (`60_exceptions.md` R1111). -/
def execRdbyte (i : BitVec 8) (s : State) : Host.Outcome State Fault Refusal :=
  match s.phase with
  | .faulted => .next s
  | .unconfigured => .next (raise .notConfigured s)
  | .absorbing => .next (raise .digestNotReady s)
  | .finalized =>
    if imm8Index i ≥ (rom s.var).dl then .next (raise .digestIndex s)
    else .next (writeRes (digestByte s (imm8Index i)) s)

end Sys2Proof.Machine
end

