-- ==== Sys2Proof/Machine/Finalize.lean ====
section
/-! DEFINITION. The padding-and-length finalizer, FINAL (`44_finalize.md` R801), in the four steps of the rule. -/

namespace Sys2Proof.Machine

/-- Step 1: the marker byte 0x80 at BLK[u], then zero fill to the end of the block. -/
def padMarker (s : State) : Except Fault State := do
  let u := s.bu.toNat
  let blk ← memWrite u [0x80] s.blk
  let blk ← memWrite (u + 1) (List.replicate ((rom s.var).blockBytes - (u + 1)) 0) blk
  return { s with blk := blk }

/-- The length field does not fit behind the marker: (P.B - u - 1) < P.Lb (R801 step 2, R802). -/
def needsExtraBlock (v : Variant) (u : Nat) : Bool := (rom v).blockBytes - u - 1 < (rom v).lenBytes

/-- Step 2: where the length field does not fit, compress, and go on with an all-zero block. -/
def padExtraBlock (s : State) : Except Fault State :=
  if needsExtraBlock s.var s.bu.toNat then do
    let s ← compressBuffer s
    let blk ← memWrite 0 (List.replicate (rom s.var).blockBytes 0) s.blk
    return { s with blk := blk }
  else .ok s

/-- The length field: (TL × 8) mod 2^P.L in P.Lb big-endian bytes (R801 step 3, R804). -/
def lengthField (v : Variant) (tl : BitVec 128) : List Byte :=
  wordToBytesBE (tl.toNat * 8 % 2 ^ (rom v).lenBits) (rom v).lenBytes

/-- Step 3: the length field into the last P.Lb bytes of the block. -/
def padLength (s : State) : Except Fault State := do
  let P := rom s.var
  let blk ← memWrite (P.blockBytes - P.lenBytes) (lengthField s.var s.tl) s.blk
  return { s with blk := blk }

/-- Steps 1 to 4: pad, compress, and leave BU = 0 and PHASE = FINALIZED. -/
def finalize (s : State) : Except Fault State := do
  let s ← padMarker s
  let s ← padExtraBlock s
  let s ← padLength s
  let s ← compressBuffer s
  return { s with bu := 0, phase := .finalized }

/-- FINAL (R801): legal in ABSORBING only; ignored in FAULTED (`60_exceptions.md` R1111). -/
def execFinal (s : State) : Host.Outcome State Fault Refusal :=
  match s.phase with
  | .faulted => .next s
  | .unconfigured => .next (raise .notConfigured s)
  | .finalized => .next (raise .finalTwice s)
  | .absorbing => finish (finalize s)

end Sys2Proof.Machine
end

