-- ==== Sys2Proof/Machine/Flags.lean ====
section
/-! DEFINITION. The machine has no flags (`10_state.md` R109); what a host can test is the STATUS view (R107). -/

namespace Sys2Proof.Machine

/-- The 2-bit code of PHASE (`10_state.md` R102). -/
def phaseCode : Phase → BitVec 2
  | .unconfigured => 0
  | .absorbing => 1
  | .finalized => 2
  | .faulted => 3

/-- The 4-bit code of CAUSE (`60_exceptions.md` R1100). -/
def causeCode : Cause → BitVec 4
  | .none => 0
  | .illegalCmd => 1
  | .badVariant => 2
  | .notConfigured => 3
  | .absorbAfterFinal => 4
  | .finalTwice => 5
  | .digestNotReady => 6
  | .digestIndex => 7

/-- STATUS: zext_12(0) : CAUSE : 0 : BU[6:0] : VAR : 00 : PHASE (`10_state.md` R107, `46_facade.md` R1002). -/
def status (s : State) : BitVec 32 :=
  (0 : BitVec 12) ++ causeCode s.cause ++ (0 : BitVec 1) ++ s.bu.extractLsb' 0 7 ++ variantCode s.var ++
    (0 : BitVec 2) ++ phaseCode s.phase

end Sys2Proof.Machine
end

