-- ==== Sys2Proof/Machine/Status.lean ====
section
/-! DEFINITION. SIZE and RDSTAT (`46_facade.md`), and the fault of an Illegal word. -/

namespace Sys2Proof.Machine

/-- SIZE (R1000): legal in ABSORBING and FINALIZED; ignored in FAULTED (`60_exceptions.md` R1111). -/
def execSize (s : State) : Host.Outcome State Fault Refusal :=
  match s.phase with
  | .faulted => .next s
  | .unconfigured => .next (raise .notConfigured s)
  | .absorbing | .finalized => .next (writeRes s.tl s)

/-- RDSTAT (R1002): legal in every phase, FAULTED included. -/
def execRdstat (s : State) : Host.Outcome State Fault Refusal := .next (writeRes (status s) s)

/-- An Illegal word: ILLEGAL_CMD, but ignored in FAULTED (`30_encoding.md` R307, `60_exceptions.md` R1111). -/
def execIllegal (s : State) : Host.Outcome State Fault Refusal :=
  match s.phase with
  | .faulted => .next s
  | .unconfigured | .absorbing | .finalized => .next (raise .illegalCmd s)

end Sys2Proof.Machine
end

