-- ==== Sys2Proof/Machine/Dispatch.lean ====
section
/-! DEFINITION. The meaning of each command, one arm per constructor of Instr (the case of `60_exceptions.md` R1112). -/

namespace Sys2Proof.Machine

def exec (i : Instr) (s : State) : Host.Outcome State Fault Refusal :=
  match i with
  | .init var => Sys2Proof.Machine.execInit var s
  | .absorb b => Sys2Proof.Machine.execAbsorb b s
  | .final => Sys2Proof.Machine.execFinal s
  | .rdbyte k => Sys2Proof.Machine.execRdbyte k s
  | .size => Sys2Proof.Machine.execSize s
  | .rdstat => Sys2Proof.Machine.execRdstat s

end Sys2Proof.Machine
end

