-- ==== Sys2Proof/Machine/CommonStep.lean ====
section
/-! DEFINITION. The common step applied to every command word (`60_exceptions.md` R1112), and what the core does with
each action of the host. -/

namespace Sys2Proof.Machine

/-- `Step(cmd)` (`60_exceptions.md` R1112). The FAULTED check of the rule stands in each meaning and in execIllegal, so
that a meaning alone also says what its command does in FAULTED (log entry 7). -/
def commonStep (cmd : CmdWord) (s : State) : Host.Outcome State Fault Refusal :=
  match decode cmd with
  | .ok i => exec i s
  | .error _ => execIllegal s

/-- One action of the host: a command word (R1112) or reset (`70_reset_and_hazards.md` R1200). -/
def takeAction (act : HostAction) (s : State) : Host.Outcome State Fault Refusal :=
  match act with
  | .write cmd => commonStep cmd s
  | .reset => .next (resetCore s)

/-- Actions of the host one after the other, each on the state the one before it left (`20_memory.md` R212). -/
def takeAll : List HostAction → State → Host.Outcome State Fault Refusal
  | [], s => .next s
  | act :: acts, s =>
    match takeAction act s with
    | .next t => takeAll acts t
    | .fault f => .fault f
    | .refused r => .refused r

/-- One step: the oldest action of the host is taken off the port and carried out; with none pending the core idles and
holds its whole state (`60_exceptions.md` R1134, `70_reset_and_hazards.md` R1201). -/
def takeNext (s : State) : Host.Outcome State Fault Refusal :=
  match s.port with
  | [] => .next s
  | act :: rest => takeAction act { s with port := rest }

/-- The state with one more command word, which the host writes next. -/
def hostWrites (cmd : CmdWord) (s : State) : State := { s with port := .write cmd :: s.port }

end Sys2Proof.Machine
end

