-- ==== Sys2Proof/Machine/Step.lean ====
section
/-! DEFINITION. The step function, and the placing of one command word before it. -/

namespace Sys2Proof.Machine

/-- One step of the machine: the host's oldest pending action, or an idle step (log entries 1 and 2). -/
def step (s : State) : Host.Outcome State Fault Refusal := takeNext s

/-- s with the command word made of the low nbits bits of w at the head of the port, so that the next step executes
exactly it (log entry 4). -/
def State.withFetchWord (s : State) (nbits w : Nat) : State := hostWrites (BitVec.ofNat 32 (w % 2 ^ nbits)) s

end Sys2Proof.Machine
end

