-- ==== Sys2Proof/Machine/Facade.lean ====
section
/-! DEFINITION. The source's operations as command sequences (`46_facade.md` R1005), and the execution of a command
sequence, one command after the other (`20_memory.md` R212). -/

namespace Sys2Proof.Machine

/-- ABSORBS: one ABSORB per byte, in order; nothing for an empty span (`30_encoding.md` R311, `43_buffer.md` R710). -/
def updateCmds (bytes : List Byte) : List Instr := bytes.map .absorb

/-- DIGEST: RDBYTE 0 to RDBYTE P.dl-1 (`30_encoding.md` R311). -/
def digestCmds (v : Variant) : List Instr := (List.range (rom v).dl).map fun i => .rdbyte (BitVec.ofNat 8 i)

/-- HASH: INIT, ABSORBS, FINAL, DIGEST (`30_encoding.md` R311, `46_facade.md` R1006). -/
def hashCmds (v : Variant) (msg : List Byte) : List Instr :=
  [.init (variantCode v)] ++ updateCmds msg ++ [.final] ++ digestCmds v

/-- The source's operations on a hasher (`46_facade.md` R1005). -/
inductive FacadeOp where
  | construct
  | update (bytes : List Byte)
  /-- `final(buffer)`; the buffer is the host's. -/
  | finalInto
  /-- `final()`; the array is the host's. -/
  | final
  | size
  | destroy
  deriving DecidableEq, Repr

/-- The command sequence of an operation on a hasher of variant v (`46_facade.md` R1005). -/
def facadeCmds (v : Variant) : FacadeOp → List Instr
  | .construct => [.init (variantCode v)]
  | .update bytes => updateCmds bytes
  | .finalInto => [.final] ++ digestCmds v
  | .final => [.final] ++ digestCmds v
  | .size => [.size]
  | .destroy => []

/-- Commands one after the other, each from the state the one before it left (`20_memory.md` R212). -/
def execAll : List Instr → State → Host.Outcome State Fault Refusal
  | [], s => .next s
  | i :: cmds, s =>
    match exec i s with
    | .next t => execAll cmds t
    | .fault f => .fault f
    | .refused r => .refused r

/-- A command sequence whose every command completes, and what the host reads as RES[7:0] after each of them: how
DIGEST delivers the digest (`30_encoding.md` R311). -/
def readAll : List Instr → State → Option (List Byte × State)
  | [], s => some ([], s)
  | i :: cmds, s =>
    match exec i s with
    | .next t => (readAll cmds t).map fun x => (t.res.setWidth 8 :: x.1, x.2)
    | .fault _ => none
    | .refused _ => none

end Sys2Proof.Machine
end

