-- ==== Sys2Proof/Machine/Assembler.lean ====
section
/-! DEFINITION. The assembler of `30_encoding.md` R310 and R311: statements to command words, and the text of a line
to a statement (log entry 12). -/

namespace Sys2Proof.Machine

/-- The code of a variant operand (R310). -/
def variantArgCode : VariantArg → BitVec 4
  | .named v => variantCode v
  | .numbered n => BitVec.ofNat 4 n

/-- The variant a statement leaves as that of the preceding INIT; HASH contains an INIT (R311). -/
def variantAfter (current : Option Variant) : Source → Option Variant
  | .init v => variantOfCode (variantArgCode v)
  | .hash v _ => variantOfCode (variantArgCode v)
  | .absorb _ | .final | .rdbyte _ | .size | .rdstat | .absorbs _ | .digest => current

/-- The commands of a statement with operands in range; DIGEST is refused when the variant is not known (R310, R311). -/
def expand (current : Option Variant) : Source → Option (List Instr)
  | .init v => some [.init (variantArgCode v)]
  | .absorb b => some [.absorb (BitVec.ofNat 8 b)]
  | .final => some [.final]
  | .rdbyte i => some [.rdbyte (BitVec.ofNat 8 i)]
  | .size => some [.size]
  | .rdstat => some [.rdstat]
  | .absorbs bytes => some (updateCmds (bytes.map (BitVec.ofNat 8)))
  | .digest => current.map digestCmds
  | .hash v bytes => (variantOfCode (variantArgCode v)).map fun u => hashCmds u (bytes.map (BitVec.ofNat 8))

/-- A program's commands; an operand outside its range is an assembly error, never wrapped (R310). -/
def assembleFrom : Option Variant → List Source → Option (List Instr)
  | _, [] => some []
  | current, line :: rest =>
    if line.wellFormed then
      match expand current line, assembleFrom (variantAfter current line) rest with
      | some cmds, some more => some (cmds ++ more)
      | some _, none => none
      | none, _ => none
    else none

/-- A program's command words. -/
def assemble (program : List Source) : Option (List CmdWord) := (assembleFrom none program).map (·.map encode)

/-- What a line is made of: words, quoted text, and the marks of a byte list. -/
inductive Token where
  | word (cs : List Char)
  | text (cs : List Char)
  | openList
  | closeList
  | comma
  deriving DecidableEq, Repr

/-- The word under way, held in reverse, in front of the tokens after it. -/
def endWord (w : List Char) (ts : List Token) : List Token := if w = [] then ts else .word w.reverse :: ts

/-- The double quote. -/
def quoteChar : Char := Char.ofNat 0x22

/-- The tokens of a line. `quoted` holds the text since an open quote, in reverse; `w` the word under way, in reverse.
`;` outside quotes starts a comment (R310); an open quote at the end of the line is an error. A bracket, a comma and a quote
end the word before them, so a mnemonic may touch such an operand; whitespace is needed between two words only. R310 and
R311 leave this open: DESIGN CHOICE (log entry 12). -/
def lex : List Char → (quoted : Option (List Char)) → (w : List Char) → Option (List Token)
  | [], some _, _ => none
  | [], none, w => some (endWord w [])
  | c :: cs, some t, w =>
    if c = quoteChar then (lex cs none w).map (.text t.reverse :: ·) else lex cs (some (c :: t)) w
  | c :: cs, none, w =>
    if c = ';' then some (endWord w [])
    else if c.isWhitespace then (lex cs none []).map (endWord w)
    else if c = '[' then (lex cs none []).map fun ts => endWord w (.openList :: ts)
    else if c = ']' then (lex cs none []).map fun ts => endWord w (.closeList :: ts)
    else if c = ',' then (lex cs none []).map fun ts => endWord w (.comma :: ts)
    else if c = quoteChar then (lex cs (some []) []).map (endWord w)
    else lex cs none (c :: w)

/-- The value of a digit in base 10 or 16. -/
def digitValue (base : Nat) (c : Char) : Option Nat :=
  let d :=
    if '0' ≤ c ∧ c ≤ '9' then c.toNat - 0x30
    else if 'a' ≤ c ∧ c ≤ 'f' then c.toNat - 0x61 + 10
    else if 'A' ≤ c ∧ c ≤ 'F' then c.toNat - 0x41 + 10
    else base
  if d < base then some d else none

/-- The value of a sequence of digits, none for an empty one. -/
def digitsValue (base : Nat) : List Char → Option Nat
  | [] => none
  | c :: cs => (c :: cs).foldl (fun n c => n.bind fun n => (digitValue base c).map fun d => n * base + d) (some 0)

/-- A number, decimal or `0x` hexadecimal (R310). -/
def numberOf : List Char → Option Nat
  | '0' :: 'x' :: ds => digitsValue 16 ds
  | ds => digitsValue 10 ds

/-- A variant operand: one of the five names, or `#<n>` (R310). -/
def variantArgOf (cs : List Char) : Option VariantArg :=
  if cs = ['s', 'h', 'a', '2', '2', '4'] then some (.named .sha224)
  else if cs = ['s', 'h', 'a', '2', '5', '6'] then some (.named .sha256)
  else if cs = ['s', 'h', 'a', '3', '8', '4'] then some (.named .sha384)
  else if cs = ['s', 'h', 'a', '5', '1', '2'] then some (.named .sha512)
  else if cs = ['s', 'h', 'a', '5', '1', '2', '_', '2', '5', '6'] then some (.named .sha512_256)
  else match cs with
    | '#' :: ds => (numberOf ds).map .numbered
    | _ => none

/-- The numbers of a byte list after its `[` up to its `]`, the last thing of the line (R311). -/
def listItems : List Token → Option (List Nat)
  | [.word n, .closeList] => (numberOf n).map ([·])
  | .word n :: .comma :: rest => (numberOf n).bind fun n => (listItems rest).map (n :: ·)
  | _ => none

/-- A byte operand: a byte list, or a text, which is its ASCII bytes without terminator (R311). -/
def bytesOf : List Token → Option (List Nat)
  | [.openList, .closeList] => some []
  | .openList :: rest => listItems rest
  | [.text cs] => if cs.all (·.toNat < 128) then some (cs.map (·.toNat)) else none
  | _ => none

/-- The statement of a mnemonic in lower case and its operands (R310, R311). -/
def statementOf (m : List Char) (ops : List Token) : Option Source :=
  if m = ['i', 'n', 'i', 't'] then
    match ops with
    | [.word v] => (variantArgOf v).map .init
    | _ => none
  else if m = ['a', 'b', 's', 'o', 'r', 'b'] then
    match ops with
    | [.word n] => (numberOf n).map .absorb
    | _ => none
  else if m = ['f', 'i', 'n', 'a', 'l'] then if ops = [] then some .final else none
  else if m = ['r', 'd', 'b', 'y', 't', 'e'] then
    match ops with
    | [.word n] => (numberOf n).map .rdbyte
    | _ => none
  else if m = ['s', 'i', 'z', 'e'] then if ops = [] then some .size else none
  else if m = ['r', 'd', 's', 't', 'a', 't'] then if ops = [] then some .rdstat else none
  else if m = ['a', 'b', 's', 'o', 'r', 'b', 's'] then (bytesOf ops).map .absorbs
  else if m = ['d', 'i', 'g', 'e', 's', 't'] then if ops = [] then some .digest else none
  else if m = ['h', 'a', 's', 'h'] then
    match ops with
    | .word v :: .comma :: rest => (variantArgOf v).bind fun v => (bytesOf rest).map (.hash v)
    | _ => none
  else none

/-- A line's statement: none for an error, `some none` for a line without one; mnemonics in any case of letters (R310). -/
def parseLine (line : List Char) : Option (Option Source) :=
  match lex line none [] with
  | none => none
  | some [] => some none
  | some (.word m :: ops) => (statementOf (m.map Char.toLower) ops).map some
  | some (_ :: _) => none

/-- The command words of a program text, given as its lines. -/
def assembleText (lines : List (List Char)) : Option (List CmdWord) :=
  (lines.mapM parseLine).bind fun program => assemble (program.filterMap id)

end Sys2Proof.Machine
end

