-- ==== Sys2Proof/Machine/Reference.lean ====
section
/-! DEFINITION. The block-level view that the rules R712, R713, R802 and R1006 speak of, and the source's own form of
two operations: the span loop of update (`43_buffer.md` R710) and the rolling schedule (`41_schedule.md` R503). No
command is executed by this file; statements compare the commands with it. -/

namespace Sys2Proof.Machine

/-- The bytes held in the buffer: BLK[0..BU-1] (`10_state.md` R105). -/
def bufferTail (s : State) : List Byte := (List.range s.bu.toNat).map fun i => readByte i s.blk

/-- The bytes of the block in use: BLK[0..P.B-1], what a compression reads (`42_compress.md` R610). -/
def wholeBlock (s : State) : List Byte := (List.range (rom s.var).blockBytes).map fun i => readByte i s.blk

/-- A byte sequence cut into whole blocks of P.B bytes, in order; a rest shorter than a block is left out. -/
def wholeBlocks (v : Variant) (bytes : List Byte) : List (List Byte) :=
  (List.range (bytes.length / (rom v).blockBytes)).map fun j =>
    (bytes.drop (j * (rom v).blockBytes)).take (rom v).blockBytes

/-- The chain value after the blocks, one compression each, in order. -/
def chainOver (v : Variant) (h : Words8 64) (blocks : List (List Byte)) : Words8 64 := blocks.foldl (nextChain v) h

/-- The initial chain value of a variant as INIT writes it (`43_buffer.md` R701). -/
def initialChain (v : Variant) : Words8 64 := (rom v).IV.map (·.setWidth 64)

/-- What FINAL appends to a message whose last u bytes are in the buffer: the marker, zero fill up to the length field
of the last block, and the length field (`44_finalize.md` R801). -/
def padding (v : Variant) (u : Nat) (tl : BitVec 128) : List Byte :=
  let B := (rom v).blockBytes
  let room := if needsExtraBlock v u then 2 * B else B
  [0x80] ++ List.replicate (room - u - 1 - (rom v).lenBytes) 0 ++ lengthField v tl

/-- The whole hash of a message as a function of its bytes (`46_facade.md` R1005, R1006). -/
def sha2 (v : Variant) (msg : List Byte) : List Byte :=
  let tl := BitVec.ofNat 128 (msg.length % 2 ^ (rom v).lenBits)
  let padded := msg ++ padding v (msg.length % (rom v).blockBytes) tl
  digestOf v (chainOver v (initialChain v) (wholeBlocks v padded))

/-- frac is the first n bits of the fractional part of the k-th root of p, c its whole part: how the tables of the ROM
are defined (`10_state.md` R121 to R123). -/
def IsRootFraction (k p n frac : Nat) : Prop :=
  ∃ c, c ^ k ≤ p ∧ p < (c + 1) ^ k ∧ (c * 2 ^ n + frac) ^ k ≤ p * 2 ^ (n * k) ∧
    p * 2 ^ (n * k) < (c * 2 ^ n + frac + 1) ^ k

/-- The source's `update(bytes)`: copy what fits into the free space, count the bytes copied, compress and empty the
buffer if it became exactly full, and go on with the rest (`43_buffer.md` R710). fuel bounds the rounds of the loop. -/
def updateSpan : (fuel : Nat) → List Byte → State → Except Fault State
  | 0, _, s => .ok s
  | _ + 1, [], s => .ok s
  | fuel + 1, bytes@(_ :: _), s => do
    let n := min ((rom s.var).blockBytes - s.bu.toNat) bytes.length
    let blk ← memWrite s.bu.toNat (bytes.take n) s.blk
    let tl := BitVec.ofNat 128 ((s.tl.toNat + n) % 2 ^ (rom s.var).lenBits)
    let s ← compressIfFull { s with blk := blk, bu := s.bu + BitVec.ofNat 8 n, tl := tl }
    updateSpan fuel (bytes.drop n) s

/-- One round of the rolling form (`41_schedule.md` R503): the window holds W[i..i+15], round i reads its first word,
and W[i+16] enters at its end. -/
def rollingRound (P : Params) (x : List (BitVec P.wb) × Words8 P.wb) (i : Nat) : List (BitVec P.wb) × Words8 P.wb :=
  (x.1.drop 1 ++ [nextWord P x.1 16], round P x.2 (P.K.getD i 0) (x.1.getD 0 0))

/-- A compression that keeps a 16-word window instead of the whole schedule (`41_schedule.md` R503). -/
def rollingCompress (P : Params) (st : Words8 P.wb) (blk : List Byte) : Words8 P.wb :=
  st.add ((List.range P.rounds).foldl (rollingRound P) (inputWords P blk, st)).2

/-- The source's order of the round's last assignment, one variable after the other (`42_compress.md` R600). -/
def sequentialRound (P : Params) (v : Words8 P.wb) (K W : BitVec P.wb) : Words8 P.wb :=
  let temp1 := v.h + bigSigma1 P v.e + ch v.e v.f v.g + K + W
  let temp2 := bigSigma0 P v.a + maj v.a v.b v.c
  let v := { v with h := v.g }
  let v := { v with g := v.f }
  let v := { v with f := v.e }
  let v := { v with e := v.d + temp1 }
  let v := { v with d := v.c }
  let v := { v with c := v.b }
  let v := { v with b := v.a }
  { v with a := temp1 + temp2 }

end Sys2Proof.Machine
end

