-- ==== Sys2Proof/Machine/Latency.lean ====
section
/-! DEFINITION. What the spec says of time: the compressions a command performs (`70_reset_and_hazards.md` R1221) and
the form of its duration (R1220, R1222). No step reads this file. -/

namespace Sys2Proof.Machine

/-- The blocks a command compresses, in order (`43_buffer.md` R705, `44_finalize.md` R801). -/
def compressedBlocks (i : Instr) (s : State) : List (List Byte) :=
  match i, s.phase with
  | .absorb b, .absorbing => wholeBlocks s.var (bufferTail s ++ [b])
  | .final, .absorbing => wholeBlocks s.var (bufferTail s ++ padding s.var s.bu.toNat s.tl)
  | .absorb _, .unconfigured | .absorb _, .finalized | .absorb _, .faulted => []
  | .final, .unconfigured | .final, .finalized | .final, .faulted => []
  | .init _, _ | .rdbyte _, _ | .size, _ | .rdstat, _ => []

/-- The number of compressions a command performs: a full block in ABSORB (`43_buffer.md` R705), one or two in FINAL
(`44_finalize.md` R802), none otherwise (`70_reset_and_hazards.md` R1221). -/
def compressions (i : Instr) (s : State) : Nat :=
  match i, s.phase with
  | .absorb _, .absorbing => if s.bu.toNat + 1 = (rom s.var).blockBytes then 1 else 0
  | .final, .absorbing => if needsExtraBlock s.var s.bu.toNat then 2 else 1
  | .absorb _, .unconfigured | .absorb _, .finalized | .absorb _, .faulted => 0
  | .final, .unconfigured | .final, .finalized | .final, .faulted => 0
  | .init _, _ | .rdbyte _, _ | .size, _ | .rdstat, _ => 0

/-- The compressions of a command sequence, up to the first command that does not complete. -/
def totalCompressions : List Instr → State → Nat
  | [], _ => 0
  | i :: cmds, s =>
    match exec i s with
    | .next t => compressions i s + totalCompressions cmds t
    | .fault _ => 0
    | .refused _ => 0

/-- The duration of a command: CmdLatency of its opcode, PHASE, VAR and compression count (R1220, R1222). -/
def latency (i : Instr) (s : State) : Nat :=
  Config.cmdLatency (opcodeOf i) (phaseCode s.phase) (variantCode s.var) (compressions i s)

end Sys2Proof.Machine
end

