-- ==== Sys2Proof/Safety.lean ====
section
/-! DEFINITION. The invariant of the context, and what a safe run is. -/

namespace Sys2Proof.Machine

/-- What holds between commands (`10_state.md` R103 to R105, `60_exceptions.md` R1100, `70_reset_and_hazards.md`
R1201). -/
structure State.Inv (s : State) : Prop where
  /-- The block buffer is in canonical form. -/
  bufferCanonical : Memory.wf s.blk
  /-- Between commands 0 ≤ BU < P.B (R105). -/
  fillBelowBlock : s.bu.toNat < (rom s.var).blockBytes
  /-- Under P.B = 64, BLK[64..127] are unused (R105); reset and INIT clear them. -/
  unusedBytesZero : ∀ i, (rom s.var).blockBytes ≤ i → readByte i s.blk = 0
  /-- Only the low P.wb bits of H[j] carry meaning; the others are 0 (R103). -/
  chainFits : ∀ j, (s.h.get j).toNat < 2 ^ (rom s.var).wb
  /-- TL is held mod 2^P.L (R104). -/
  countFits : s.tl.toNat < 2 ^ (rom s.var).lenBits
  /-- CAUSE is 0 in every phase but FAULTED (R701, R1100). -/
  causeIffFaulted : s.cause = .none ↔ s.phase ≠ .faulted
  /-- FINAL leaves BU = 0 (`44_finalize.md` R801). -/
  finalizedEmpty : s.phase = .finalized → s.bu = 0
  /-- In UNCONFIGURED the machine is as reset left it (R1201). -/
  unconfiguredIsReset : s.phase = .unconfigured → { s with port := [] } = State.reset

/-- n steps, stopping at the first fault or refusal; `Host.Core.run` of the core (Laws/Run.lean). -/
def runSteps : Nat → State → Host.Outcome State Fault Refusal
  | 0, s => .next s
  | n + 1, s =>
    match step s with
    | .next t => runSteps n t
    | .fault f => .fault f
    | .refused r => .refused r

/-- A safe run: from s, n steps complete, each without a fault or a refusal of the model. -/
def SafeRun (n : Nat) (s : State) : Prop := ∀ k ≤ n, ∃ t, runSteps k s = .next t

end Sys2Proof.Machine
end

