-- ==== Sys2Proof/Certificates/Slice0/Obligations.lean ====
section
/-! DEFINITION. The statements for the provers, one numbered rule of spec/ after the other. -/

open Sys2Proof Sys2Proof.Machine

/- ### Encoding -/

/-- The words of `95_test_vectors.md` section 2.10, written out from the formats of `30_encoding.md` R302 and R306. The spec
knows one Illegal; the reason that each refusal names is the model's choice (log entry 15). -/
def Obligations.SpecWordsDecode : Prop :=
  decode 0x10000000 = .ok (.init 0) ∧ decode 0x10000004 = .ok (.init 4) ∧ decode 0x1000000f = .ok (.init 15) ∧
  decode 0x20000000 = .ok (.absorb 0x00) ∧ decode 0x200000ff = .ok (.absorb 0xff) ∧
  decode 0x30000000 = .ok .final ∧ decode 0x400000ff = .ok (.rdbyte 255) ∧
  decode 0x50000000 = .ok .size ∧ decode 0x60000000 = .ok .rdstat ∧
  decode 0x10000010 = .error .nonzeroZeroField ∧ decode 0x20000100 = .error .nonzeroZeroField ∧
  decode 0x30000001 = .error .nonzeroZeroField ∧ decode 0x58000000 = .error .nonzeroZeroField ∧
  decode 0x00000000 = .error .reservedOpcode ∧ decode 0x7fffffff = .error .reservedOpcode ∧
  decode 0xffffffff = .error .reservedOpcode

/-- Decoding an encoded command gives it back, at every operand value its field admits (`30_encoding.md` R302, R307). -/
def Obligations.DecodeOfEncode : Prop := ∀ i : Instr, decode (encode i) = .ok i

/-- A word that decodes is the encoding of what it decodes to: no bit of a command word is ignored (R302, R307). -/
def Obligations.EncodeOfDecode : Prop := ∀ (w : CmdWord) (i : Instr), decode w = .ok i → encode i = w

/-- `30_encoding.md` R306: which words are well-formed commands, word by word against the (match, mask) pairs, which
select disjoint sets. -/
def Obligations.DecodeFollowsOpcodeMap : Prop :=
  (∀ w : CmdWord, (∃ i, decode w = .ok i) ↔
    (opField w = 0x1 ∧ zeroFieldV w = 0) ∨ (opField w = 0x2 ∧ zeroFieldB w = 0) ∨
    (opField w = 0x3 ∧ zeroFieldZ w = 0) ∨ (opField w = 0x4 ∧ zeroFieldB w = 0) ∨
    (opField w = 0x5 ∧ zeroFieldZ w = 0) ∨ (opField w = 0x6 ∧ zeroFieldZ w = 0)) ∧
  (∀ w : CmdWord, (∃ var, decode w = .ok (.init var)) ↔ w &&& 0xFFFFFFF0 = 0x10000000) ∧
  (∀ w : CmdWord, (∃ b, decode w = .ok (.absorb b)) ↔ w &&& 0xFFFFFF00 = 0x20000000) ∧
  (∀ w : CmdWord, decode w = .ok .final ↔ w &&& 0xFFFFFFFF = 0x30000000) ∧
  (∀ w : CmdWord, (∃ k, decode w = .ok (.rdbyte k)) ↔ w &&& 0xFFFFFF00 = 0x40000000) ∧
  (∀ w : CmdWord, decode w = .ok .size ↔ w &&& 0xFFFFFFFF = 0x50000000) ∧
  (∀ w : CmdWord, decode w = .ok .rdstat ↔ w &&& 0xFFFFFFFF = 0x60000000) ∧
  (∀ w : CmdWord, wordWellFormed w = true ↔ ∃ i, decode w = .ok i) ∧
  (∀ w : CmdWord, opcodeMap.Pairwise fun r q => ¬(r.selects w = true ∧ q.selects w = true))

/-- The illegal encodings of `30_encoding.md` section 4 (R308), and that every one of them faults with ILLEGAL_CMD outside
FAULTED, where R307 has it ignored. The spec has one Illegal: that the decoder splits it into two reasons, as the first
three clauses say, is the model's choice (log entry 15). -/
def Obligations.ReservedWordsFault : Prop :=
  (∀ w : CmdWord, decode w = .error .reservedOpcode ↔ opField w = 0x0 ∨ 0x7 ≤ (opField w).toNat) ∧
  (∀ w : CmdWord, decode w = .error .nonzeroZeroField ↔
    (opField w = 0x1 ∧ zeroFieldV w ≠ 0) ∨ ((opField w = 0x2 ∨ opField w = 0x4) ∧ zeroFieldB w ≠ 0) ∨
    ((opField w = 0x3 ∨ opField w = 0x5 ∨ opField w = 0x6) ∧ zeroFieldZ w ≠ 0)) ∧
  decode 0x00000000 = .error .reservedOpcode ∧
  (∀ (w : CmdWord) (e : Illegal) (s : State), decode w = .error e → s.phase ≠ .faulted →
    commonStep w s = .next (raise .illegalCmd s))

/- ### The step -/

/-- `60_exceptions.md` R1112, as the rule writes it. -/
def Obligations.CommonStepIsTheRule : Prop :=
  ∀ (cmd : CmdWord) (s : State), commonStep cmd s =
    if s.phase = .faulted then
      if cmd = 0x60000000 then exec .rdstat s else .next s
    else
      match decode cmd with
      | .error _ => .next (raise .illegalCmd s)
      | .ok i => exec i s

/-- A step carries out the host's oldest pending command: the word is taken off the port, and if it decodes, the step is
the meaning of the decoded command (`60_exceptions.md`, the common step; the port is the model's choice, log entry 1). -/
def Obligations.StepRunsDecodedCommand : Prop :=
  ∀ (s : State) (cmd : CmdWord) (rest : List HostAction) (i : Instr),
    s.port = .write cmd :: rest → decode cmd = .ok i → step s = exec i { s with port := rest }

/-- With nothing pending a step holds the whole state (`60_exceptions.md` R1134). That an idle step is a step is the
model's choice (log entry 2). -/
def Obligations.IdleStepHoldsState : Prop := ∀ s : State, s.port = [] → step s = .next s

/-- A run takes the actions on the port one at a time, in the order the host issued them, each on the state the one before
it left (`20_memory.md`, ordering). That the pending actions are a list in State is the model's choice (log entry 1). -/
def Obligations.PortRunsInOrder : Prop :=
  ∀ (acts rest : List HostAction) (s : State),
    runSteps acts.length { s with port := acts ++ rest } = takeAll acts { s with port := rest }

/-- Reset (`70_reset_and_hazards.md` section 1): every element at its reset value, no effect of a command surviving, and no
other action clearing CAUSE or leaving FAULTED. That a reset during a command is a reset without that command is the
model's inference (log entry 3, DEDUCED), and that reset keeps the pending actions its choice (log entry 1). -/
def Obligations.ResetSetsEveryElement : Prop :=
  (∀ s : State, ∃ t, takeAction .reset s = .next t ∧
    phaseCode t.phase = 0 ∧ t.phase = .unconfigured ∧ variantCode t.var = 0 ∧ (∀ j, t.h.get j = 0) ∧ t.tl = 0 ∧
    (∀ i, readByte i t.blk = 0) ∧ Memory.wf t.blk ∧ t.bu = 0 ∧ causeCode t.cause = 0 ∧ t.res = 0 ∧ t.port = s.port) ∧
  (∀ (cmd : CmdWord) (s t : State), commonStep cmd s = .next t → takeAction .reset t = takeAction .reset s) ∧
  (∀ (act : HostAction) (s t : State), takeAction act s = .next t →
    (s.cause ≠ .none ∧ t.cause = .none) ∨ (s.phase = .faulted ∧ t.phase ≠ .faulted) → act = .reset)

/-- What each command does in UNCONFIGURED, and that the core waits there (`70_reset_and_hazards.md`, reset). That waiting
is a step which changes nothing is the model's inference (log entry 2). -/
def Obligations.UnconfiguredAcceptsInitAndRdstat : Prop :=
  ∀ s : State, s.Inv → s.phase = .unconfigured →
    (∀ v, exec (.init (variantCode v)) s = .next (freshContext v s)) ∧
    exec .rdstat s = .next { s with res := 0 } ∧ status s = 0 ∧
    (∀ b, exec (.absorb b) s = .next (raise .notConfigured s)) ∧
    exec .final s = .next (raise .notConfigured s) ∧
    (∀ k, exec (.rdbyte k) s = .next (raise .notConfigured s)) ∧
    exec .size s = .next (raise .notConfigured s) ∧
    (∀ w e, decode w = .error e → commonStep w s = .next (raise .illegalCmd s)) ∧
    (s.port = [] → step s = .next s)

/- ### Faults -/

/-- `60_exceptions.md` R1110: the fault entry writes CAUSE and PHASE and nothing else, and a command that faults leaves
exactly that state: faults are precise. -/
def Obligations.FaultEntryIsPrecise : Prop :=
  (∀ (c : Cause) (s : State), (raise c s).cause = c ∧ (raise c s).phase = .faulted ∧ (raise c s).var = s.var ∧
    (raise c s).h = s.h ∧ (raise c s).tl = s.tl ∧ (raise c s).blk = s.blk ∧ (raise c s).bu = s.bu ∧
    (raise c s).res = s.res ∧ (raise c s).port = s.port) ∧
  (∀ (cmd : CmdWord) (s t : State), s.phase ≠ .faulted → commonStep cmd s = .next t → t.phase = .faulted →
    ∃ c, c ≠ .none ∧ t = raise c s)

/-- `60_exceptions.md` R1100: the cause table. Outside FAULTED a command word raises a cause exactly under the condition
of the cause's row; the cause's code is its row's. -/
def Obligations.FaultCauseTable : Prop :=
  (causeCode .none = 0 ∧ causeCode .illegalCmd = 1 ∧ causeCode .badVariant = 2 ∧ causeCode .notConfigured = 3 ∧
    causeCode .absorbAfterFinal = 4 ∧ causeCode .finalTwice = 5 ∧ causeCode .digestNotReady = 6 ∧
    causeCode .digestIndex = 7) ∧
  ∀ (cmd : CmdWord) (s : State) (c : Cause), s.phase ≠ .faulted →
    (commonStep cmd s = .next (raise c s) ∧ c ≠ .none ↔
      match c with
      | .none => False
      | .illegalCmd => ∃ e, decode cmd = .error e
      | .badVariant => ∃ var : BitVec 4, decode cmd = .ok (.init var) ∧ 5 ≤ var.toNat
      | .notConfigured => s.phase = .unconfigured ∧
          ((∃ b, decode cmd = .ok (.absorb b)) ∨ decode cmd = .ok .final ∨ (∃ k, decode cmd = .ok (.rdbyte k)) ∨
            decode cmd = .ok .size)
      | .absorbAfterFinal => s.phase = .finalized ∧ ∃ b, decode cmd = .ok (.absorb b)
      | .finalTwice => s.phase = .finalized ∧ decode cmd = .ok .final
      | .digestNotReady => s.phase = .absorbing ∧ ∃ k, decode cmd = .ok (.rdbyte k)
      | .digestIndex => s.phase = .finalized ∧
          ∃ k : BitVec 8, decode cmd = .ok (.rdbyte k) ∧ (rom s.var).dl ≤ k.toNat)

/-- `60_exceptions.md` R1111: in FAULTED only the word 0x60000000 does anything, and whatever the host does short of a
reset, the machine stays in FAULTED with the code of the first fault and its whole context. -/
def Obligations.FaultedUntilReset : Prop :=
  (∀ (cmd : CmdWord) (s : State), s.phase = .faulted →
    commonStep cmd s = if cmd = 0x60000000 then .next { s with res := (status s).setWidth 128 } else .next s) ∧
  (∀ (acts : List HostAction) (s : State), s.phase = .faulted → HostAction.reset ∉ acts →
    ∃ t, takeAll acts s = .next t ∧ { t with res := s.res } = s) ∧
  (∀ (act : HostAction) (s t : State), s.phase = .faulted → takeAction act s = .next t → t.phase ≠ .faulted →
    act = .reset)

/- ### INIT -/

/-- `43_buffer.md` R701: INIT in every phase, for every value of var, its word and the words that are not it. -/
def Obligations.InitBuildsContext : Prop :=
  (∀ (var : BitVec 4) (s : State), commonStep (0x10000000 ||| var.setWidth 32) s = exec (.init var) s) ∧
  (∀ (w : CmdWord) (s : State), opField w = 0x1 → zeroFieldV w ≠ 0 → s.phase ≠ .faulted →
    commonStep w s = .next (raise .illegalCmd s)) ∧
  (∀ var : BitVec 4, var.toNat < 5 → ∃ v, variantCode v = var) ∧
  (∀ (v : Variant) (s : State), s.phase ≠ .faulted → ∃ t, exec (.init (variantCode v)) s = .next t ∧
    t.var = v ∧ (∀ j, t.h.get j = ((rom v).IV.get j).setWidth 64) ∧ t.tl = 0 ∧ t.bu = 0 ∧
    (∀ i, readByte i t.blk = 0) ∧ Memory.wf t.blk ∧ t.phase = .absorbing ∧
    t.cause = s.cause ∧ t.res = s.res ∧ t.port = s.port ∧
    exec (.init (variantCode v)) t = .next t) ∧
  (∀ (var : BitVec 4) (s : State), s.phase ≠ .faulted → 5 ≤ var.toNat →
    exec (.init var) s = .next (raise .badVariant s)) ∧
  (∀ (var : BitVec 4) (s : State), s.phase = .faulted → exec (.init var) s = .next s)

/- ### ABSORB -/

/-- `43_buffer.md` R705: ABSORB in every phase, with its word and its frame. In ABSORBING, with BU below P.B as R105 has it between
commands: the byte goes to BLK[BU] and every other byte of BLK is unchanged; TL counts it; a block that became full is
compressed and BU is 0. -/
def Obligations.AbsorbTakesOneByte : Prop :=
  (∀ (b : Byte) (s : State), commonStep (0x20000000 ||| b.setWidth 32) s = exec (.absorb b) s) ∧
  (∀ (w : CmdWord) (s : State), opField w = 0x2 → zeroFieldB w ≠ 0 → s.phase ≠ .faulted →
    commonStep w s = .next (raise .illegalCmd s)) ∧
  (∀ (b : Byte) (s : State), s.phase = .absorbing → s.bu.toNat < (rom s.var).blockBytes → Memory.wf s.blk →
    ∃ t, exec (.absorb b) s = .next t ∧
      (∀ i, readByte i t.blk = if i = s.bu.toNat then b else readByte i s.blk) ∧ Memory.wf t.blk ∧
      t.tl.toNat = (s.tl.toNat + 1) % 2 ^ (rom s.var).lenBits ∧
      (s.bu.toNat + 1 < (rom s.var).blockBytes → t.bu.toNat = s.bu.toNat + 1 ∧ t.h = s.h) ∧
      (s.bu.toNat + 1 = (rom s.var).blockBytes → t.bu = 0 ∧ t.h = nextChain s.var s.h (wholeBlock t)) ∧
      t.phase = .absorbing ∧ t.var = s.var ∧ t.cause = s.cause ∧ t.res = s.res ∧ t.port = s.port) ∧
  (∀ (b : Byte) (s : State), s.phase = .unconfigured → exec (.absorb b) s = .next (raise .notConfigured s)) ∧
  (∀ (b : Byte) (s : State), s.phase = .finalized → exec (.absorb b) s = .next (raise .absorbAfterFinal s)) ∧
  (∀ (b : Byte) (s : State), s.phase = .faulted → exec (.absorb b) s = .next s)

/-- The counting law (`43_buffer.md` R712, which the spec marks as derived): n ABSORBs from BU = u and TL = t make floor((u + n) / P.B) compressions and
leave BU = (u + n) mod P.B and TL = (t + n) mod 2^P.L; the compressions depend on u and n only. -/
def Obligations.AbsorbCountingLaw : Prop :=
  (∀ (bytes : List Byte) (s : State), s.phase = .absorbing → s.bu.toNat < (rom s.var).blockBytes →
    ∃ t, execAll (updateCmds bytes) s = .next t ∧ t.phase = .absorbing ∧
      totalCompressions (updateCmds bytes) s = (s.bu.toNat + bytes.length) / (rom s.var).blockBytes ∧
      t.bu.toNat = (s.bu.toNat + bytes.length) % (rom s.var).blockBytes ∧
      (bytes ≠ [] → t.tl.toNat = (s.tl.toNat + bytes.length) % 2 ^ (rom s.var).lenBits) ∧
      (bytes = [] → t = s)) ∧
  (∀ (bytes bytes' : List Byte) (s s' : State), bytes.length = bytes'.length → s.phase = .absorbing →
    s'.phase = .absorbing → s.var = s'.var → s.bu = s'.bu → s.bu.toNat < (rom s.var).blockBytes →
    totalCompressions (updateCmds bytes) s = totalCompressions (updateCmds bytes') s')

/-- `43_buffer.md` R713 (marked derived): the state after INIT and one ABSORB per byte of a message, from any state but FAULTED. -/
def Obligations.AbsorbedMessageState : Prop :=
  ∀ (v : Variant) (msg : List Byte) (s : State), s.phase ≠ .faulted → msg.length < 2 ^ (rom v).lenBits →
    ∃ t, execAll (.init (variantCode v) :: updateCmds msg) s = .next t ∧
      t.phase = .absorbing ∧ t.var = v ∧ t.tl.toNat = msg.length ∧
      t.bu.toNat = msg.length % (rom v).blockBytes ∧
      bufferTail t = msg.drop (msg.length - msg.length % (rom v).blockBytes) ∧
      t.h = chainOver v (initialChain v) (wholeBlocks v msg)

/-- `43_buffer.md` R710 (marked derived): the source's span loop and the ABSORB sequence leave the same state, for every span. -/
def Obligations.SpanUpdateIsAbsorbSequence : Prop :=
  ∀ (bytes : List Byte) (s : State), s.phase = .absorbing → s.bu.toNat < (rom s.var).blockBytes →
    finish (updateSpan bytes.length bytes s) = execAll (updateCmds bytes) s

/-- `43_buffer.md` R711 (marked derived): feeding a message span by span, in order, leaves the state that feeding it whole leaves. -/
def Obligations.ChunkIndependence : Prop :=
  ∀ (spans : List (List Byte)) (s : State), s.phase = .absorbing → s.bu.toNat < (rom s.var).blockBytes →
    ∃ t, execAll (updateCmds spans.flatten) s = .next t ∧
      spans.foldlM (fun u span => updateSpan span.length span u) s = .ok t

/- ### FINAL -/

/-- `44_finalize.md` R801: FINAL in every phase, with its word and its frame. In ABSORBING, with u = BU below P.B (R105): marker, zero
fill, an extra block where the length field does not fit, the length field, the last compression; no byte of BLK outside
the block in use changes, nor one below u where no extra block is taken. -/
def Obligations.FinalPadsAndCompresses : Prop :=
  (∀ (s : State), commonStep 0x30000000 s = exec .final s) ∧
  (∀ (w : CmdWord) (s : State), opField w = 0x3 → zeroFieldZ w ≠ 0 → s.phase ≠ .faulted →
    commonStep w s = .next (raise .illegalCmd s)) ∧
  (∀ s : State, s.phase = .absorbing → s.bu.toNat < (rom s.var).blockBytes → Memory.wf s.blk →
    ∃ t, exec .final s = .next t ∧
      (∀ i, readByte i t.blk =
        if (rom s.var).blockBytes ≤ i then readByte i s.blk
        else if (rom s.var).blockBytes - (rom s.var).lenBytes ≤ i then
          (wordToBytesBE (s.tl.toNat * 8 % 2 ^ (rom s.var).lenBits) (rom s.var).lenBytes).getD
            (i - ((rom s.var).blockBytes - (rom s.var).lenBytes)) 0
        else if (rom s.var).blockBytes - s.bu.toNat - 1 < (rom s.var).lenBytes then 0
        else if i < s.bu.toNat then readByte i s.blk
        else if i = s.bu.toNat then 0x80 else 0) ∧
      Memory.wf t.blk ∧
      (¬(rom s.var).blockBytes - s.bu.toNat - 1 < (rom s.var).lenBytes →
        t.h = nextChain s.var s.h (wholeBlock t)) ∧
      ((rom s.var).blockBytes - s.bu.toNat - 1 < (rom s.var).lenBytes →
        t.h = nextChain s.var (nextChain s.var s.h ((List.range (rom s.var).blockBytes).map fun i =>
          if i < s.bu.toNat then readByte i s.blk else if i = s.bu.toNat then 0x80 else 0)) (wholeBlock t)) ∧
      t.phase = .finalized ∧ t.bu = 0 ∧ t.tl = s.tl ∧ t.var = s.var ∧ t.cause = s.cause ∧ t.res = s.res ∧
      t.port = s.port) ∧
  (∀ s : State, s.phase = .unconfigured → exec .final s = .next (raise .notConfigured s)) ∧
  (∀ s : State, s.phase = .finalized → exec .final s = .next (raise .finalTwice s)) ∧
  (∀ s : State, s.phase = .faulted → exec .final s = .next s)

/-- `44_finalize.md` R802 (marked derived): two compressions exactly when P.B - BU - 1 < P.Lb: BU ≥ 56 for SHA-224 and SHA-256, BU ≥ 112
for the others. -/
def Obligations.ExtraBlockCondition : Prop :=
  ∀ s : State, s.phase = .absorbing → s.bu.toNat < (rom s.var).blockBytes →
    compressions .final s = (if (rom s.var).blockBytes - s.bu.toNat - 1 < (rom s.var).lenBytes then 2 else 1) ∧
    (compressedBlocks .final s).length = compressions .final s ∧
    (s.var = .sha224 ∨ s.var = .sha256 → (compressions .final s = 2 ↔ 56 ≤ s.bu.toNat)) ∧
    (s.var = .sha384 ∨ s.var = .sha512 ∨ s.var = .sha512_256 → (compressions .final s = 2 ↔ 112 ≤ s.bu.toNat))

/-- `44_finalize.md` R803 (marked derived): after the ABSORB that fills a block, FINAL starts with BU = 0 and compresses one padding-only
block. -/
def Obligations.ExactBlockMessage : Prop :=
  ∀ (b : Byte) (s : State), s.phase = .absorbing → s.bu.toNat + 1 = (rom s.var).blockBytes → Memory.wf s.blk →
    ∃ t u, exec (.absorb b) s = .next t ∧ t.bu = 0 ∧ compressions .final t = 1 ∧ exec .final t = .next u ∧
      u.h = nextChain s.var t.h ([0x80] ++
        List.replicate ((rom s.var).blockBytes - 1 - (rom s.var).lenBytes) 0 ++ lengthField s.var t.tl)

/-- `44_finalize.md` R804: the length field is (TL × 8) mod 2^P.L, so byte counts with the same bit length modulo 2^P.L
finalize alike; with SHA-256, TL = 2^61 gives the field 0 and TL = 2^61 + 1 gives 8. -/
def Obligations.LengthModulus : Prop :=
  (∀ (v : Variant) (tl : BitVec 128), (lengthField v tl).length = (rom v).lenBytes ∧
    bytesToWordBE (lengthField v tl) = tl.toNat * 8 % 2 ^ (rom v).lenBits) ∧
  (∀ (s t : State) (tl' : BitVec 128),
    s.tl.toNat * 8 % 2 ^ (rom s.var).lenBits = tl'.toNat * 8 % 2 ^ (rom s.var).lenBits → s.phase = .absorbing →
    exec .final s = .next t → exec .final { s with tl := tl' } = .next { t with tl := tl' }) ∧
  lengthField .sha256 (2 ^ 61) = [0, 0, 0, 0, 0, 0, 0, 0] ∧
  lengthField .sha256 (2 ^ 61 + 1) = [0, 0, 0, 0, 0, 0, 0, 8]

/-- `44_finalize.md` R805: after a FINAL that ran, a second FINAL faults with FINAL_TWICE and changes nothing else. -/
def Obligations.FinalRunsOnce : Prop :=
  ∀ s : State, s.phase = .absorbing → s.bu.toNat < (rom s.var).blockBytes →
    ∃ t, exec .final s = .next t ∧ t.phase = .finalized ∧
      exec .final t = .next { t with cause := .finalTwice, phase := .faulted }

/- ### RDBYTE -/

/-- `45_digest.md` R901: RDBYTE in every phase, for every index: in FINALIZED, below P.dl, RES gets byte i of Digest() and
nothing else changes. -/
def Obligations.RdbyteReadsDigestByte : Prop :=
  (∀ (k : BitVec 8) (s : State), commonStep (0x40000000 ||| k.setWidth 32) s = exec (.rdbyte k) s) ∧
  (∀ (w : CmdWord) (s : State), opField w = 0x4 → zeroFieldB w ≠ 0 → s.phase ≠ .faulted →
    commonStep w s = .next (raise .illegalCmd s)) ∧
  (∀ (k : BitVec 8) (s : State), s.phase = .finalized → k.toNat < (rom s.var).dl →
    exec (.rdbyte k) s = .next { s with res := ((digest s).getD k.toNat 0).setWidth 128 }) ∧
  (∀ (k : BitVec 8) (s : State), s.phase = .finalized → (rom s.var).dl ≤ k.toNat →
    exec (.rdbyte k) s = .next (raise .digestIndex s)) ∧
  (∀ (k : BitVec 8) (s : State), s.phase = .absorbing → exec (.rdbyte k) s = .next (raise .digestNotReady s)) ∧
  (∀ (k : BitVec 8) (s : State), s.phase = .unconfigured → exec (.rdbyte k) s = .next (raise .notConfigured s)) ∧
  (∀ (k : BitVec 8) (s : State), s.phase = .faulted → exec (.rdbyte k) s = .next s)

/-- `45_digest.md` R900: Digest() is the first P.ow words of H, each as P.w big-endian bytes, P.dl bytes in all; the words
H[P.ow..7] do not reach it. -/
def Obligations.DigestLayout : Prop :=
  (∀ s : State, (digest s).length = (rom s.var).ow * (rom s.var).wordBytes ∧ (digest s).length = (rom s.var).dl) ∧
  (∀ (s : State) (j : Fin 8) (k : Nat), j.val < (rom s.var).ow → k < (rom s.var).wordBytes →
    ((digest s).getD (j.val * (rom s.var).wordBytes + k) 0).toNat =
      ((s.h.get j).toNat % 2 ^ (rom s.var).wb) / 2 ^ (8 * ((rom s.var).wordBytes - 1 - k)) % 256) ∧
  (∀ s t : State, s.var = t.var → (∀ j : Fin 8, j.val < (rom s.var).ow → s.h.get j = t.h.get j) → digest s = digest t)

/-- `45_digest.md` R902 (marked derived): RDBYTE 0 to P.dl - 1 give exactly the P.dl bytes of the digest, and every other index faults. -/
def Obligations.DigestCommandsDeliverDigest : Prop :=
  ∀ s : State, s.phase = .finalized →
    (∃ t, readAll (digestCmds s.var) s = some (digest s, t) ∧ { t with res := s.res } = s) ∧
    (digestCmds s.var).length = (rom s.var).dl ∧ (digest s).length = (rom s.var).dl ∧
    (∀ k : BitVec 8, (rom s.var).dl ≤ k.toNat → exec (.rdbyte k) s = .next (raise .digestIndex s))

/- ### SIZE, RDSTAT and RES -/

/-- `46_facade.md` R1000: SIZE in every phase; right after INIT it reads 0, and FINAL does not change what it reads. -/
def Obligations.SizeReadsCount : Prop :=
  (∀ (s : State), commonStep 0x50000000 s = exec .size s) ∧
  (∀ (w : CmdWord) (s : State), opField w = 0x5 → zeroFieldZ w ≠ 0 → s.phase ≠ .faulted →
    commonStep w s = .next (raise .illegalCmd s)) ∧
  (∀ s : State, s.phase = .absorbing ∨ s.phase = .finalized → exec .size s = .next { s with res := s.tl }) ∧
  (∀ s : State, s.phase = .unconfigured → exec .size s = .next (raise .notConfigured s)) ∧
  (∀ s : State, s.phase = .faulted → exec .size s = .next s) ∧
  (∀ (v : Variant) (s t : State), s.phase ≠ .faulted → exec (.init (variantCode v)) s = .next t → t.tl = 0) ∧
  (∀ s t : State, s.phase = .absorbing → exec .final s = .next t → t.tl = s.tl)

/-- `10_state.md` R107: the fields of STATUS, its reserved bits, its value at reset, and that a fault keeps VARIANT and
BLOCK_USED. -/
def Obligations.StatusLayout : Prop :=
  (∀ s : State, (status s).extractLsb' 0 2 = phaseCode s.phase ∧ (status s).extractLsb' 2 2 = 0 ∧
    (status s).extractLsb' 4 4 = variantCode s.var ∧ (status s).extractLsb' 8 7 = s.bu.extractLsb' 0 7 ∧
    (status s).extractLsb' 15 1 = 0 ∧ (status s).extractLsb' 16 4 = causeCode s.cause ∧
    (status s).extractLsb' 20 12 = 0) ∧
  (∀ s : State, s.Inv → ((status s).extractLsb' 8 7).toNat = s.bu.toNat) ∧
  (∀ (c : Cause) (s : State), (status (raise c s)).extractLsb' 4 4 = (status s).extractLsb' 4 4 ∧
    (status (raise c s)).extractLsb' 8 7 = (status s).extractLsb' 8 7) ∧
  status State.reset = 0x00000000

/-- `46_facade.md` R1002: RDSTAT in every phase: RES gets the 32-bit STATUS, zero-extended, and nothing else changes. -/
def Obligations.RdstatReadsStatus : Prop :=
  (∀ (s : State), commonStep 0x60000000 s = exec .rdstat s) ∧
  (∀ (w : CmdWord) (s : State), opField w = 0x6 → zeroFieldZ w ≠ 0 → s.phase ≠ .faulted →
    commonStep w s = .next (raise .illegalCmd s)) ∧
  (∀ s : State, exec .rdstat s = .next { s with res := (status s).setWidth 128 }) ∧
  (∀ s : State, ((status s).setWidth 128).toNat =
    (causeCode s.cause).toNat * 2 ^ 16 + s.bu.toNat % 128 * 2 ^ 8 + (variantCode s.var).toNat * 2 ^ 4 +
      (phaseCode s.phase).toNat)

/-- `20_memory.md` R208 (marked derived): RDBYTE, SIZE and RDSTAT change nothing but RES when they do not fault, and repeated they give
the same result. -/
def Obligations.ReadsChangeOnlyRes : Prop :=
  ∀ (i : Instr) (s t : State), (∃ k, i = .rdbyte k) ∨ i = .size ∨ i = .rdstat →
    exec i s = .next t → (t.phase = .faulted → s.phase = .faulted) →
    { t with res := s.res } = s ∧ exec i t = .next t

/-- The write sets of `10_state.md` R130 for commands that do not fault, BLK byte by byte: what each command leaves
unchanged. -/
def Obligations.CommandFrames : Prop :=
  ∀ (i : Instr) (s t : State), s.Inv → s.phase ≠ .faulted → exec i s = .next t → t.phase ≠ .faulted →
    t.cause = s.cause ∧ t.port = s.port ∧ Memory.wf t.blk ∧
    match i with
    | .init _ => t.res = s.res
    | .absorb _ => t.phase = s.phase ∧ t.var = s.var ∧ t.res = s.res ∧
        (s.bu.toNat + 1 ≠ (rom s.var).blockBytes → t.h = s.h) ∧
        (∀ a, a ≠ s.bu.toNat → readByte a t.blk = readByte a s.blk)
    | .final => t.var = s.var ∧ t.tl = s.tl ∧ t.res = s.res ∧
        (∀ a, (rom s.var).blockBytes ≤ a → readByte a t.blk = readByte a s.blk) ∧
        (needsExtraBlock s.var s.bu.toNat = false → ∀ a < s.bu.toNat, readByte a t.blk = readByte a s.blk)
    | .rdbyte _ => { t with res := s.res } = s ∧ ∀ a, readByte a t.blk = readByte a s.blk
    | .size => { t with res := s.res } = s ∧ ∀ a, readByte a t.blk = readByte a s.blk
    | .rdstat => { t with res := s.res } = s ∧ ∀ a, readByte a t.blk = readByte a s.blk

/-- `10_state.md` R102: the codes of PHASE, and that only INIT, FINAL, the fault entry and reset change it. -/
def Obligations.PhaseTransitions : Prop :=
  (phaseCode .unconfigured = 0 ∧ phaseCode .absorbing = 1 ∧ phaseCode .finalized = 2 ∧ phaseCode .faulted = 3) ∧
  ∀ (act : HostAction) (s t : State), takeAction act s = .next t → t.phase ≠ s.phase →
    (act = .reset ∧ t.phase = .unconfigured) ∨
    ∃ cmd, act = .write cmd ∧ s.phase ≠ .faulted ∧
      ((∃ var, decode cmd = .ok (.init var) ∧ t.phase = .absorbing) ∨
        (decode cmd = .ok .final ∧ s.phase = .absorbing ∧ t.phase = .finalized) ∨
        ∃ c, c ≠ .none ∧ t = raise c s)

/-- `10_state.md` R106: of the commands only SIZE, RDBYTE and RDSTAT write RES, always as a whole and zero-extended, and
none that faults. -/
def Obligations.ResWriters : Prop :=
  (∀ (cmd : CmdWord) (s t : State), commonStep cmd s = .next t → t.res ≠ s.res →
    (s.phase = .faulted ∨ t.phase ≠ .faulted) ∧
      ((∃ k, decode cmd = .ok (.rdbyte k) ∧ t.res.toNat < 2 ^ 8) ∨ (decode cmd = .ok .size ∧ t.res = s.tl) ∨
        (decode cmd = .ok .rdstat ∧ t.res.toNat < 2 ^ 32))) ∧
  (∀ (cmd : CmdWord) (s t : State), s.phase ≠ .faulted → commonStep cmd s = .next t → t.phase = .faulted →
    t.res = s.res)

/- ### The invariant -/

/-- Reset leaves the invariant of the context, whatever the host does next. -/
def Obligations.ResetMeetsInvariant : Prop := ∀ port : List HostAction, ({ State.reset with port := port } : State).Inv

/-- Every step keeps the invariant of the context: BU below P.B, H and TL within the variant's widths, the unused bytes
of BLK zero, its canonical form, and CAUSE nonzero exactly in FAULTED. -/
def Obligations.StepKeepsInvariant : Prop := ∀ s t : State, s.Inv → step s = .next t → t.Inv

/-- Every step of a state that meets the invariant completes: the model's own fault and refusal are out of reach. -/
def Obligations.InvariantStepCompletes : Prop := ∀ s : State, s.Inv → ∃ t, step s = .next t

/-- Every run from reset, with any sequence of host actions, completes at every length and keeps the invariant. -/
def Obligations.RunsFromResetAreSafe : Prop :=
  ∀ (port : List HostAction) (n : Nat), SafeRun n { State.reset with port := port } ∧
    ∀ t, runSteps n { State.reset with port := port } = .next t → t.Inv

/- ### The datapath -/

/-- `40_codec.md` R402 (marked derived): the two conversions undo each other. -/
def Obligations.CodecLaws : Prop :=
  (∀ n x : Nat, x < 2 ^ (8 * n) → bytesToWordBE (wordToBytesBE x n) = x) ∧
  (∀ s : List Byte, wordToBytesBE (bytesToWordBE s) s.length = s)

/-- The bit primitives bit by bit (`40_codec.md` R405 to R408): a rotation moves bit (i + n) mod w to bit i, Ch chooses by
the bit of e, Maj is the majority. -/
def Obligations.BitPrimitives : Prop :=
  (∀ (w n i : Nat) (x : BitVec w), 0 < n → n < w → i < w → (rotr x n).getLsbD i = x.getLsbD ((i + n) % w)) ∧
  (∀ (w n i : Nat) (x : BitVec w), 0 < n → n < w → i < w →
    (shr x n).getLsbD i = (decide (i + n < w) && x.getLsbD (i + n))) ∧
  (∀ (w i : Nat) (e f g : BitVec w), i < w →
    (ch e f g).getLsbD i = if e.getLsbD i then f.getLsbD i else g.getLsbD i) ∧
  (∀ (w i : Nat) (a b c : BitVec w), i < w →
    (maj a b c).getLsbD i = decide (2 ≤ (a.getLsbD i).toNat + (b.getLsbD i).toNat + (c.getLsbD i).toNat))

/-- `41_schedule.md` R500 and R501: P.R words; the first 16 are the block's big-endian words, each later one is the sum
of the rule; the all-zero block gives the all-zero schedule. -/
def Obligations.ScheduleRecurrence : Prop :=
  (∀ (v : Variant) (blk : List Byte), blk.length = (rom v).blockBytes →
    (expandSchedule (rom v) blk).length = (rom v).rounds ∧
    (∀ j < 16, (expandSchedule (rom v) blk).getD j 0 = BitVec.ofNat (rom v).wb
      (bytesToWordBE ((List.range (rom v).wordBytes).map fun k => blk.getD (j * (rom v).wordBytes + k) 0))) ∧
    (∀ i, 16 ≤ i → i < (rom v).rounds → (expandSchedule (rom v) blk).getD i 0 =
      (expandSchedule (rom v) blk).getD (i - 16) 0 + smallSigma0 (rom v) ((expandSchedule (rom v) blk).getD (i - 15) 0) +
        (expandSchedule (rom v) blk).getD (i - 7) 0 + smallSigma1 (rom v) ((expandSchedule (rom v) blk).getD (i - 2) 0))) ∧
  (∀ (v : Variant) (i : Nat),
    (expandSchedule (rom v) (List.replicate (rom v).blockBytes 0)).getD i 0 = 0)

/-- `42_compress.md` R600: the working variables start as st and each round makes the simultaneous assignment of the
rule. -/
def Obligations.RoundLoop : Prop :=
  ∀ (P : Params) (st : Words8 P.wb) (W : List (BitVec P.wb)) (v : Nat → Words8 P.wb), v 0 = st →
    (∀ i < P.rounds,
      let temp1 := (v i).h + bigSigma1 P (v i).e + ch (v i).e (v i).f (v i).g + P.K.getD i 0 + W.getD i 0
      let temp2 := bigSigma0 P (v i).a + maj (v i).a (v i).b (v i).c
      v (i + 1) = ⟨temp1 + temp2, (v i).a, (v i).b, (v i).c, (v i).d + temp1, (v i).e, (v i).f, (v i).g⟩) →
    rounds P st W = v P.rounds

/-- The source's one-by-one order of the round's assignment gives the same rounds (`42_compress.md` R600, where the spec
marks this as derived). -/
def Obligations.SequentialRoundsAgree : Prop :=
  ∀ (P : Params) (st : Words8 P.wb) (W : List (BitVec P.wb)), rounds P st W =
    (List.range P.rounds).foldl (fun v i => sequentialRound P v (P.K.getD i 0) (W.getD i 0)) st

/-- `42_compress.md` R601 and R610: the compression adds the chain value at its start to the working variables at its
end, word by word, zero-extends to 64 bits, and writes H and nothing else. -/
def Obligations.CompressBlockFeedsForward : Prop :=
  ∀ (s : State) (blk : List Byte),
    (∀ j, (compressBlock blk s).h.get j =
      ((s.h.get j).setWidth (rom s.var).wb +
        (rounds (rom s.var) (s.h.map (·.setWidth (rom s.var).wb)) (expandSchedule (rom s.var) blk)).get j).setWidth 64) ∧
    { compressBlock blk s with h := s.h } = s

/-- `41_schedule.md` R503 (marked derived): a compression that keeps a 16-word window gives the same chain value as one that keeps the
whole schedule. -/
def Obligations.RollingScheduleAgrees : Prop :=
  ∀ (v : Variant) (st : Words8 (rom v).wb) (blk : List Byte),
    rollingCompress (rom v) st blk = compress (rom v) st (expandSchedule (rom v) blk)

/-- `00_scope.md` R5 and R7: every ROM record has the fields of a parameter record and satisfies its invariants; every
amount lies strictly between 0 and P.wb (`40_codec.md`, bit primitives). -/
def Obligations.RomRecordsWellFormed : Prop :=
  (∀ v : Variant, (rom v).ow ≤ 8 ∧ (rom v).dl = (rom v).ow * (rom v).wordBytes ∧ 16 * (rom v).wb % 8 = 0 ∧
    (rom v).lenBits + 8 ≤ 16 * (rom v).wb) ∧
  (∀ v : Variant, (rom v).K.length = (rom v).rounds ∧ ((rom v).wb = 32 ∨ (rom v).wb = 64) ∧
    ((rom v).wb = 32 → (rom v).rounds = 64 ∧ (rom v).lenBits = 64) ∧
    ((rom v).wb = 64 → (rom v).rounds = 80 ∧ (rom v).lenBits = 128)) ∧
  (∀ v : Variant, ∀ n ∈ [(rom v).c.n0, (rom v).c.n1, (rom v).c.n2, (rom v).c.n3, (rom v).c.n4, (rom v).c.n5,
    (rom v).k.n0, (rom v).k.n1, (rom v).k.n2, (rom v).k.n3, (rom v).k.n4, (rom v).k.n5], 0 < n ∧ n < (rom v).wb)

/-- The ROM's values are what the spec says they are (`10_state.md` R121 to R123, which mark them as general knowledge;
log entry 8): cube roots and square roots of primes, and the SHA-512/256 initial state as a SHA-512 digest. -/
def Obligations.RomConstantsAreRoots : Prop :=
  (∀ i < 64, IsRootFraction 3 (Nat.nth Nat.Prime i) 32 (k32.getD i 0).toNat) ∧
  (∀ i < 80, IsRootFraction 3 (Nat.nth Nat.Prime i) 64 (k64.getD i 0).toNat) ∧
  (∀ i < 64, (k64.getD i 0).extractLsb' 32 32 = k32.getD i 0) ∧
  (∀ j : Fin 8, IsRootFraction 2 (Nat.nth Nat.Prime j) 32 ((rom .sha256).IV.get j).toNat) ∧
  (∀ j : Fin 8, IsRootFraction 2 (Nat.nth Nat.Prime j) 64 ((rom .sha512).IV.get j).toNat) ∧
  (∀ j : Fin 8, IsRootFraction 2 (Nat.nth Nat.Prime (j + 8)) 64 ((rom .sha384).IV.get j).toNat) ∧
  (∀ j : Fin 8, ∃ high < 2 ^ 32,
    IsRootFraction 2 (Nat.nth Nat.Prime (j + 8)) 64 (high * 2 ^ 32 + ((rom .sha224).IV.get j).toNat)) ∧
  (∀ name : List Byte, name = [0x53, 0x48, 0x41, 0x2d, 0x35, 0x31, 0x32, 0x2f, 0x32, 0x35, 0x36] →
    (initialChain .sha512_256).toList = (chainOver .sha512 ((initialChain .sha512).map (· ^^^ 0xa5a5a5a5a5a5a5a5))
      (wholeBlocks .sha512 (name ++ padding .sha512 11 11))).toList)

/- ### Compressions and time -/

/-- `70_reset_and_hazards.md` R1221 (marked derived): ABSORB makes at most one compression, FINAL one or two, the others none; and the
count is the machine's: from a state that meets the invariant, a command other than INIT leaves as H the chain value
after exactly that many blocks of P.B bytes. -/
def Obligations.CompressionsPerCommand : Prop :=
  (∀ (b : Byte) (s : State), compressions (.absorb b) s ≤ 1) ∧
  (∀ s : State, compressions .final s ≤ 2 ∧ (s.phase = .absorbing → 1 ≤ compressions .final s)) ∧
  (∀ (i : Instr) (s : State), (∃ v, i = .init v) ∨ (∃ k, i = .rdbyte k) ∨ i = .size ∨ i = .rdstat →
    compressions i s = 0) ∧
  (∀ (i : Instr) (s t : State), s.Inv → (∀ v, i ≠ .init v) → exec i s = .next t →
    t.h = chainOver s.var s.h (compressedBlocks i s) ∧ (compressedBlocks i s).length = compressions i s ∧
    ∀ blk ∈ compressedBlocks i s, blk.length = (rom s.var).blockBytes)

/-- The duration of a command does not depend on message bytes, H, TL or RES: two commands of one opcode, in states of the
same PHASE, VAR and BU, take the same time (`70_reset_and_hazards.md` section 4). That the open duration is an opaque
constant of just these arguments is the model's choice (log entry 10). -/
def Obligations.LatencyDataIndependent : Prop :=
  ∀ (i j : Instr) (s t : State), opcodeOf i = opcodeOf j → s.phase = t.phase → s.var = t.var → s.bu = t.bu →
    latency i s = latency j t

/-- Control does not depend on data (`20_memory.md` R218 in its section 5, `43_buffer.md` R712, `44_finalize.md` R806): from
states that differ only in H, BLK, RES and CAUSE, a command (an ABSORB of any byte) leaves the same PHASE, VAR, TL and
BU. -/
def Obligations.ControlDataIndependent : Prop :=
  ∀ (i j : Instr) (s t s' t' : State), (i = j ∨ ∃ b c, i = .absorb b ∧ j = .absorb c) →
    s.phase = t.phase → s.var = t.var → s.tl = t.tl → s.bu = t.bu →
    exec i s = .next s' → exec j t = .next t' →
    s'.phase = t'.phase ∧ s'.var = t'.var ∧ s'.tl = t'.tl ∧ s'.bu = t'.bu

/- ### Whole hashes -/

/-- A complete hash (`46_facade.md` R1005, R1006): from any state but FAULTED, INIT, one ABSORB per message byte, FINAL
and the RDBYTEs of DIGEST deliver to the host the hash of the message as a function of its bytes: pad, cut into blocks,
compress from the initial state, serialize. -/
def Obligations.CommandsComputeHash : Prop :=
  ∀ (v : Variant) (msg : List Byte) (s : State), s.phase ≠ .faulted →
    ∃ t u, execAll ([.init (variantCode v)] ++ updateCmds msg ++ [.final]) s = .next t ∧ t.phase = .finalized ∧
      readAll (digestCmds v) t = some (sha2 v msg, u) ∧ (sha2 v msg).length = (rom v).dl

/-- `46_facade.md` R1006 (marked derived): a complete hash is INIT, |M| ABSORBs, FINAL and P.dl RDBYTEs, and performs
floor(|M| / P.B) + 1 + [BU ≥ P.B - P.Lb] compressions, with BU = |M| mod P.B. -/
def Obligations.HashCompressionCount : Prop :=
  ∀ (v : Variant) (msg : List Byte) (s : State), s.phase ≠ .faulted →
    hashCmds v msg = [.init (variantCode v)] ++ updateCmds msg ++ [.final] ++ digestCmds v ∧
    (updateCmds msg).length = msg.length ∧ (digestCmds v).length = (rom v).dl ∧
    totalCompressions (hashCmds v msg) s = msg.length / (rom v).blockBytes + 1 +
      if (rom v).blockBytes - (rom v).lenBytes ≤ msg.length % (rom v).blockBytes then 1 else 0

/-- `46_facade.md` R1005: the source's operations as command sequences; `update` has no failure path. -/
def Obligations.FacadeSequences : Prop :=
  (∀ v : Variant, facadeCmds v .construct = [.init (variantCode v)] ∧
    (∀ bytes, facadeCmds v (.update bytes) = bytes.map .absorb) ∧
    facadeCmds v .finalInto = .final :: (List.range (rom v).dl).map (fun i => .rdbyte (BitVec.ofNat 8 i)) ∧
    facadeCmds v .final = .final :: (List.range (rom v).dl).map (fun i => .rdbyte (BitVec.ofNat 8 i)) ∧
    facadeCmds v .size = [.size] ∧ facadeCmds v .destroy = []) ∧
  (∀ (v : Variant) (s : State), s.phase ≠ .faulted →
    execAll (facadeCmds v .construct) s = .next (freshContext v s)) ∧
  (∀ (bytes : List Byte) (s : State), s.phase = .absorbing → s.bu.toNat < (rom s.var).blockBytes →
    ∃ t, execAll (facadeCmds s.var (.update bytes)) s = .next t ∧ t.phase = .absorbing ∧ t.cause = s.cause) ∧
  (∀ s : State, s.phase = .absorbing → s.bu.toNat < (rom s.var).blockBytes →
    ∃ t, execAll (facadeCmds s.var .final) s = .next t ∧ t.phase = .finalized ∧ t.cause = s.cause)

/-- `45_digest.md` R903: the truncated variants share the computation of SHA-256 or SHA-512, differ by their initial
state, and output fewer of its words. -/
def Obligations.TruncatedVariantsShareComputation : Prop :=
  (∀ (h : Words8 64) (blk : List Byte), nextChain .sha224 h blk = nextChain .sha256 h blk ∧
    nextChain .sha384 h blk = nextChain .sha512 h blk ∧ nextChain .sha512_256 h blk = nextChain .sha512 h blk) ∧
  ((rom .sha224).ow = 7 ∧ (rom .sha384).ow = 6 ∧ (rom .sha512_256).ow = 4) ∧
  (initialChain .sha224 ≠ initialChain .sha256 ∧ initialChain .sha384 ≠ initialChain .sha512 ∧
    initialChain .sha512_256 ≠ initialChain .sha512) ∧
  (∀ s t : State, s.h = t.h → s.var = .sha224 ∧ t.var = .sha256 ∨ s.var = .sha384 ∧ t.var = .sha512 ∨
      s.var = .sha512_256 ∧ t.var = .sha512 →
    digest s = (digest t).take ((rom s.var).ow * (rom s.var).wordBytes))

/- ### The assembler -/

/-- The words of the assembler's statements (`30_encoding.md` R310): an operand in its range is or-ed into the command's
word, one outside is an error and never wrapped. -/
def Obligations.AssemblerWords : Prop :=
  (∀ n : Nat, assemble [.init (.numbered n)] = if n < 16 then some [0x10000000 ||| BitVec.ofNat 32 n] else none) ∧
  (assemble [.init (.named .sha224)] = some [0x10000000] ∧ assemble [.init (.named .sha256)] = some [0x10000001] ∧
    assemble [.init (.named .sha384)] = some [0x10000002] ∧ assemble [.init (.named .sha512)] = some [0x10000003] ∧
    assemble [.init (.named .sha512_256)] = some [0x10000004]) ∧
  (∀ n : Nat, assemble [.absorb n] = if n < 256 then some [0x20000000 ||| BitVec.ofNat 32 n] else none) ∧
  assemble [.final] = some [0x30000000] ∧
  (∀ n : Nat, assemble [.rdbyte n] = if n < 256 then some [0x40000000 ||| BitVec.ofNat 32 n] else none) ∧
  assemble [.size] = some [0x50000000] ∧ assemble [.rdstat] = some [0x60000000]

/-- The pseudo-instructions (`30_encoding.md` R311): ABSORBS is its ABSORBs, DIGEST its RDBYTEs against the variant of the
preceding INIT and refused without one, HASH is INIT, ABSORBS, FINAL, DIGEST. -/
def Obligations.PseudoInstructionsExpand : Prop :=
  (∀ bytes : List Nat, assemble [.absorbs bytes] = assemble (bytes.map .absorb)) ∧
  (∀ v : Variant, assemble [.init (.named v), .digest] =
    assemble (.init (.named v) :: (List.range (rom v).dl).map .rdbyte)) ∧
  assemble [.digest] = none ∧
  (∀ (v : VariantArg) (bytes : List Nat),
    assemble [.hash v bytes] = assemble [.init v, .absorbs bytes, .final, .digest])
end

