-- ==== Sys2Proof/Laws/Datapath.lean ====
section
/-! SUPPORT. The datapath: the words of a group of eight, the codec, the growing schedule, and the width of H. -/

namespace Sys2Proof.Machine

@[simp] theorem get_map {v w : Nat} (f : BitVec v → BitVec w) (x : Words8 v) (j : Fin 8) :
    (x.map f).get j = f (x.get j) := by fin_cases j <;> rfl

@[simp] theorem get_add {w : Nat} (x y : Words8 w) (j : Fin 8) : (x.add y).get j = x.get j + y.get j := by
  fin_cases j <;> rfl

theorem getElem_toList {w : Nat} (x : Words8 w) (j : Fin 8) :
    x.toList[j.val]'(by simp [Words8.toList]) = x.get j := by fin_cases j <;> rfl

/-- A compression leaves zero-extended words: only the low P.wb bits of H[j] are ever used (`10_state.md` R103). -/
theorem nextChain_fits (v : Variant) (h : Words8 64) (blk : List Byte) (j : Fin 8) :
    ((nextChain v h blk).get j).toNat < 2 ^ (rom v).wb := by
  unfold nextChain
  rw [get_map, BitVec.toNat_setWidth]
  exact lt_of_le_of_lt (Nat.mod_le _ _) (BitVec.isLt _)

/-- Byte j of a converted word (`40_codec.md` R401). -/
theorem getD_wordToBytesBE {x n j : Nat} (h : j < n) :
    (wordToBytesBE x n).getD j 0 = BitVec.ofNat 8 (x >>> (8 * (n - 1 - j))) := by
  simp [wordToBytesBE, List.getD, h]

/-- n bytes hold a number below 2^(8n). -/
theorem bytesToWordBE_lt (s : List Byte) : bytesToWordBE s < 2 ^ (8 * s.length) := by
  induction s with
  | nil => simp [bytesToWordBE]
  | cons b s ih =>
    simp only [bytesToWordBE, List.length_cons]
    have := b.isLt
    calc b.toNat * 2 ^ (8 * s.length) + bytesToWordBE s < (b.toNat + 1) * 2 ^ (8 * s.length) := by rw [Nat.add_mul]; omega
      _ ≤ 2 ^ 8 * 2 ^ (8 * s.length) := Nat.mul_le_mul_right _ (by omega)
      _ = 2 ^ (8 * (s.length + 1)) := by rw [← pow_add]; congr 1; omega

@[simp] theorem inputWords_length (P : Params) (blk : List Byte) : (inputWords P blk).length = 16 := by
  simp [inputWords]

theorem getD_inputWords (P : Params) (blk : List Byte) {j : Nat} (h : j < 16) :
    (inputWords P blk).getD j 0 = blockWord P blk j := by simp [inputWords, List.getD, h]

/-- A schedule grown by n words: the words it started with stay, and each new one follows `41_schedule.md` R501. -/
theorem grownSchedule (P : Params) (W0 : List (BitVec P.wb)) (h0 : W0.length = 16) (n : Nat) :
    ((List.range' 16 n).foldl (fun W i => W ++ [nextWord P W i]) W0).length = 16 + n ∧
    (∀ j < 16, ((List.range' 16 n).foldl (fun W i => W ++ [nextWord P W i]) W0).getD j 0 = W0.getD j 0) ∧
    ∀ i, 16 ≤ i → i < 16 + n → ((List.range' 16 n).foldl (fun W i => W ++ [nextWord P W i]) W0).getD i 0 =
      nextWord P ((List.range' 16 n).foldl (fun W i => W ++ [nextWord P W i]) W0) i := by
  induction n with
  | zero => simp [h0]; omega
  | succ n ih =>
    simp only [List.range'_concat, List.foldl_append, List.foldl_cons, List.foldl_nil, Nat.one_mul]
    generalize (List.range' 16 n).foldl (fun W i => W ++ [nextWord P W i]) W0 = W at ih ⊢
    obtain ⟨h1, h2, h3⟩ := ih
    have hd : ∀ x, ∀ j < W.length, (W ++ [x]).getD j 0 = W.getD j 0 := fun x j hj => List.getD_append _ _ _ _ hj
    have hn : ∀ x i, 16 ≤ i → i ≤ W.length → nextWord P (W ++ [x]) i = nextWord P W i := by
      intro x i hi hl
      simp only [nextWord, hd x (i - 16) (by omega), hd x (i - 15) (by omega), hd x (i - 7) (by omega),
        hd x (i - 2) (by omega)]
    refine ⟨by simp [h1]; omega, fun j hj => by rw [hd _ _ (by omega), h2 j hj], fun i hi hl => ?_⟩
    rw [hn _ _ hi (by omega)]
    by_cases hlt : i < 16 + n
    · rw [hd _ _ (by omega), h3 i hi hlt]
    · obtain rfl : i = 16 + n := by omega
      rw [List.getD_append_right _ _ _ _ (by omega), h1]; simp

end Sys2Proof.Machine
end

