-- ==== Sys2Proof/Laws/Decode.lean ====
section
/-! SUPPORT. The fields of a word built from fields, and a word as its fields. -/

namespace Sys2Proof

/-- Bits above the low part of a concatenation are bits of the high part. -/
theorem extractLsb'_append_high {m n : Nat} (x : BitVec m) (y : BitVec n) (a k : Nat) (h : n ≤ a) :
    (x ++ y).extractLsb' a k = x.extractLsb' (a - n) k := by
  apply BitVec.eq_of_getLsbD_eq
  intro i hi
  simp only [BitVec.getLsbD_append, BitVec.getLsbD_extractLsb', if_neg (by omega : ¬a + i < n),
    show a + i - n = a - n + i by omega]

/-- Bits of the low part of a concatenation. -/
theorem extractLsb'_append_low {m n : Nat} (x : BitVec m) (y : BitVec n) (a k : Nat) (h : a + k ≤ n) :
    (x ++ y).extractLsb' a k = y.extractLsb' a k := by
  apply BitVec.eq_of_getLsbD_eq
  intro i hi
  simp only [BitVec.getLsbD_append, BitVec.getLsbD_extractLsb', if_pos (by omega : a + i < n)]

/-- A word is its high part beside its low part. -/
theorem append_extractLsb' {m n : Nat} (x : BitVec (m + n)) : x.extractLsb' n m ++ x.extractLsb' 0 n = x := by
  apply BitVec.eq_of_getLsbD_eq
  intro i hi
  simp only [BitVec.getLsbD_append, BitVec.getLsbD_extractLsb']
  by_cases h : i < n
  · simp [h]
  · simp [h, show n + (i - n) = i by omega, show i - n < m by omega]

/-- A field inside a field. -/
theorem extractLsb'_extractLsb'_of_le {w : Nat} (x : BitVec w) (a b k l : Nat) (h : b + l ≤ k) :
    (x.extractLsb' a k).extractLsb' b l = x.extractLsb' (a + b) l := by
  apply BitVec.eq_of_getLsbD_eq
  intro i hi
  simp only [BitVec.getLsbD_extractLsb', hi, show b + i < k by omega, decide_true, Bool.true_and,
    show a + (b + i) = a + b + i by omega]

/-- The fields of a word of format Z (`30_encoding.md` R302). -/
theorem fieldsZ (o : BitVec 4) (z : BitVec 28) : opField (o ++ z) = o ∧ zeroFieldZ (o ++ z) = z :=
  ⟨(extractLsb'_append_high o z 28 4 (by omega)).trans (by simp),
    (extractLsb'_append_low o z 0 28 (by omega)).trans (by simp)⟩

/-- The fields of a word of format V (R302). -/
theorem fieldsV (o : BitVec 4) (z : BitVec 24) (v : BitVec 4) :
    opField (o ++ z ++ v) = o ∧ zeroFieldV (o ++ z ++ v) = z ∧ varField (o ++ z ++ v) = v :=
  ⟨(extractLsb'_append_high (o ++ z) v 28 4 (by omega)).trans
      ((extractLsb'_append_high o z 24 4 (by omega)).trans (by simp)),
    (extractLsb'_append_high (o ++ z) v 4 24 (by omega)).trans
      ((extractLsb'_append_low o z 0 24 (by omega)).trans (by simp)),
    (extractLsb'_append_low (o ++ z) v 0 4 (by omega)).trans (by simp)⟩

/-- The fields of a word of format B (R302). -/
theorem fieldsB (o : BitVec 4) (z : BitVec 20) (b : BitVec 8) :
    opField (o ++ z ++ b) = o ∧ zeroFieldB (o ++ z ++ b) = z ∧ imm8Field (o ++ z ++ b) = b :=
  ⟨(extractLsb'_append_high (o ++ z) b 28 4 (by omega)).trans
      ((extractLsb'_append_high o z 20 4 (by omega)).trans (by simp)),
    (extractLsb'_append_high (o ++ z) b 8 20 (by omega)).trans
      ((extractLsb'_append_low o z 0 20 (by omega)).trans (by simp)),
    (extractLsb'_append_low (o ++ z) b 0 8 (by omega)).trans (by simp)⟩

/-- A word is its fields of format Z. -/
theorem word_eq_fieldsZ (w : CmdWord) : opField w ++ zeroFieldZ w = w := append_extractLsb' (m := 4) (n := 28) w

/-- A word is its fields of format V. -/
theorem word_eq_fieldsV (w : CmdWord) : opField w ++ zeroFieldV w ++ varField w = w := by
  have h1 := append_extractLsb' (m := 28) (n := 4) w
  have h2 := append_extractLsb' (m := 4) (n := 24) (w.extractLsb' 4 28)
  rw [extractLsb'_extractLsb'_of_le _ _ _ _ _ (by omega), extractLsb'_extractLsb'_of_le _ _ _ _ _ (by omega)] at h2
  rw [← h2] at h1
  exact h1

/-- A word is its fields of format B. -/
theorem word_eq_fieldsB (w : CmdWord) : opField w ++ zeroFieldB w ++ imm8Field w = w := by
  have h1 := append_extractLsb' (m := 24) (n := 8) w
  have h2 := append_extractLsb' (m := 4) (n := 20) (w.extractLsb' 8 24)
  rw [extractLsb'_extractLsb'_of_le _ _ _ _ _ (by omega), extractLsb'_extractLsb'_of_le _ _ _ _ _ (by omega)] at h2
  rw [← h2] at h1
  exact h1

end Sys2Proof
end

