-- ==== Sys2Proof/Laws/Memory.lean ====
section
/-! SUPPORT. The block buffer: a read after a write, and that every write keeps the canonical form. -/

namespace Sys2Proof.Machine

/-- A buffer all of whose indices lie above i reads as 0 at i. -/
theorem readByte_eq_zero_of_lt (i : Nat) (m : Memory) (h : ∀ c ∈ m, i < c.1) : readByte i m = 0 := by
  induction m with
  | nil => rfl
  | cons c m ih =>
    have hc : i < c.1 := h c (by simp)
    simp only [readByte]
    rw [if_neg (by omega)]
    exact ih fun d hd => h d (by simp [hd])

/-- The canonical form of a nonempty buffer, taken apart. -/
theorem wf_cons (c : Host.Cell) (m : Memory) :
    Memory.wf (c :: m) ↔ (∀ d ∈ m, c.1 < d.1) ∧ c.1 < Config.bufferBytes ∧ c.2 ≠ 0 ∧ Memory.wf m := by
  simp only [Memory.wf, List.map_cons, List.pairwise_cons, List.mem_map, List.mem_cons, forall_eq_or_imp]
  constructor
  · rintro ⟨⟨h1, h2⟩, ⟨h3, h4⟩, h5⟩
    exact ⟨fun d hd => h1 _ ⟨d, hd, rfl⟩, h3, h4, h2, h5⟩
  · rintro ⟨h1, h3, h4, h2, h5⟩
    exact ⟨⟨fun _ ⟨d, hd, e⟩ => e ▸ h1 d hd, h2⟩, ⟨h3, h4⟩, h5⟩

@[simp] theorem wf_nil : Memory.wf [] := by simp [Memory.wf]

/-- Where the pairs of a written buffer come from. -/
theorem mem_writeByte {i : Nat} {b : Byte} {m : Memory} {d : Host.Cell} (h : d ∈ writeByte i b m) :
    d ∈ m ∨ (d = (i, b) ∧ b ≠ 0) := by
  induction m with
  | nil =>
    by_cases hb : b = 0 <;> simp_all [writeByte]
  | cons c m ih =>
    obtain ⟨j, x⟩ := c
    simp only [writeByte] at h
    split_ifs at h with h1 hb h2 hb
    · exact .inl h
    · rcases List.mem_cons.1 h with rfl | h
      · exact .inr ⟨rfl, hb⟩
      · exact .inl h
    · exact .inl (List.mem_cons_of_mem _ h)
    · rcases List.mem_cons.1 h with rfl | h
      · exact .inr ⟨rfl, hb⟩
      · exact .inl (List.mem_cons_of_mem _ h)
    · rcases List.mem_cons.1 h with rfl | h
      · exact .inl (by simp)
      · rcases ih h with h | h
        · exact .inl (List.mem_cons_of_mem _ h)
        · exact .inr h

/-- A write of one byte keeps the canonical form. -/
theorem writeByte_wf {i : Nat} {b : Byte} {m : Memory} (hm : Memory.wf m) (hi : i < Config.bufferBytes) :
    Memory.wf (writeByte i b m) := by
  induction m with
  | nil =>
    simp only [writeByte]
    split_ifs with hb
    · exact hm
    · exact (wf_cons _ _).2 ⟨by simp, hi, hb, hm⟩
  | cons c m ih =>
    obtain ⟨j, x⟩ := c
    obtain ⟨h1, h2, h3, h4⟩ := (wf_cons _ _).1 hm
    simp only [writeByte]
    split_ifs with h5 hb h6 hb
    · exact hm
    · refine (wf_cons _ _).2 ⟨?_, hi, hb, hm⟩
      intro d hd
      rcases List.mem_cons.1 hd with rfl | hd
      · exact h5
      · exact lt_trans h5 (h1 d hd)
    · exact h4
    · exact (wf_cons _ _).2 ⟨fun d hd => h6 ▸ h1 d hd, hi, hb, h4⟩
    · refine (wf_cons _ _).2 ⟨?_, h2, h3, ih h4⟩
      intro d hd
      rcases mem_writeByte hd with hd | ⟨rfl, -⟩
      · exact h1 d hd
      · simp only at *; omega

/-- A read after a write of one byte: the byte written at its index, the old byte everywhere else. -/
theorem readByte_writeByte {i : Nat} {b : Byte} {m : Memory} (hm : Memory.wf m) (a : Nat) :
    readByte a (writeByte i b m) = if a = i then b else readByte a m := by
  induction m with
  | nil =>
    simp only [writeByte]
    split_ifs with hb ha ha <;> simp_all only [readByte, if_true, if_false]
  | cons c m ih =>
    obtain ⟨j, x⟩ := c
    obtain ⟨h1, -, -, h4⟩ := (wf_cons _ _).1 hm
    rcases Nat.lt_trichotomy i j with hij | rfl | hij
    · by_cases hb : b = 0
      · simp only [writeByte, if_pos hij, if_pos hb]
        by_cases ha : a = i
        · rw [if_pos ha, hb, ha]
          refine readByte_eq_zero_of_lt _ _ fun d hd => ?_
          rcases List.mem_cons.1 hd with rfl | hd
          · exact hij
          · exact lt_trans hij (h1 d hd)
        · rw [if_neg ha]
      · simp only [writeByte, if_pos hij, if_neg hb, readByte]
    · by_cases hb : b = 0
      · simp only [writeByte, lt_irrefl, if_false, if_true, if_pos hb, readByte]
        by_cases ha : a = i
        · rw [if_pos ha, hb, ha]
          exact readByte_eq_zero_of_lt _ _ h1
        · rw [if_neg ha, if_neg ha]
      · simp only [writeByte, lt_irrefl, if_false, if_true, if_neg hb, readByte]
        by_cases ha : a = i
        · rw [if_pos ha, if_pos ha]
        · rw [if_neg ha, if_neg ha, if_neg ha]
    · simp only [writeByte, if_neg (by omega : ¬i < j), if_neg (by omega : ¬i = j), readByte, ih h4]
      by_cases ha : a = i
      · rw [if_neg (by omega), if_pos ha, if_pos ha]
      · rw [if_neg ha, if_neg ha]

/-- Writes of a byte sequence keep the canonical form. -/
theorem writeBytes_wf {s : List Byte} {i : Nat} {m : Memory} (hm : Memory.wf m)
    (hi : i + s.length ≤ Config.bufferBytes) : Memory.wf (writeBytes i s m) := by
  induction s generalizing i m with
  | nil => exact hm
  | cons b s ih =>
    simp only [List.length_cons] at hi
    exact ih (writeByte_wf hm (by omega)) (by omega)

/-- A read after a write of a byte sequence at i. -/
theorem readByte_writeBytes {s : List Byte} {i : Nat} {m : Memory} (hm : Memory.wf m)
    (hi : i + s.length ≤ Config.bufferBytes) (a : Nat) :
    readByte a (writeBytes i s m) = if i ≤ a ∧ a < i + s.length then s.getD (a - i) 0 else readByte a m := by
  induction s generalizing i m with
  | nil => rw [if_neg (by simp)]; rfl
  | cons b s ih =>
    simp only [List.length_cons] at hi ⊢
    simp only [writeBytes]
    rw [ih (writeByte_wf hm (by omega)) (by omega), readByte_writeByte hm]
    by_cases ha : a = i
    · subst ha; simp
    · by_cases h : i ≤ a ∧ a < i + (s.length + 1)
      · rw [if_pos (by omega), if_pos h, show a - i = (a - (i + 1)) + 1 by omega, List.getD_cons_succ]
      · rw [if_neg (by omega), if_neg ha, if_neg h]

/-- MemWrite answers exactly when every index exists, and then it writes the sequence. -/
theorem memWrite_eq_ok {i : Nat} {s : List Byte} {m m' : Memory} :
    memWrite i s m = .ok m' ↔ i + s.length ≤ Config.bufferBytes ∧ m' = writeBytes i s m := by
  unfold memWrite
  split_ifs with h <;> simp [h, eq_comm]

/-- MemWrite keeps the canonical form. -/
theorem memWrite_wf {i : Nat} {s : List Byte} {m m' : Memory} (hm : Memory.wf m) (h : memWrite i s m = .ok m') :
    Memory.wf m' := by
  obtain ⟨hi, rfl⟩ := memWrite_eq_ok.1 h
  exact writeBytes_wf hm hi

/-- A read after MemWrite. -/
theorem readByte_memWrite {i : Nat} {s : List Byte} {m m' : Memory} (hm : Memory.wf m) (h : memWrite i s m = .ok m')
    (a : Nat) : readByte a m' = if i ≤ a ∧ a < i + s.length then s.getD (a - i) 0 else readByte a m := by
  obtain ⟨hi, rfl⟩ := memWrite_eq_ok.1 h
  exact readByte_writeBytes hm hi a

/-- MemWrite of indices that exist. -/
theorem memWrite_ok {i : Nat} {s : List Byte} {m : Memory} (h : i + s.length ≤ Config.bufferBytes) :
    memWrite i s m = .ok (writeBytes i s m) := by simp [memWrite, h]

/-- MemRead of indices that exist. -/
theorem memRead_ok {i n : Nat} {m : Memory} (h : i + n ≤ Config.bufferBytes) :
    memRead i n m = .ok ((List.range n).map fun j => readByte (i + j) m) := by simp [memRead, h]

@[simp] theorem readByte_cleared (i : Nat) : readByte i clearedBuffer = 0 := rfl

@[simp] theorem cleared_wf : Memory.wf clearedBuffer := wf_nil

@[simp] theorem reset_blk_wf : Memory.wf State.reset.blk := wf_nil

end Sys2Proof.Machine
end

