-- ==== Sys2Proof/Laws/State.lean ====
section
/-! SUPPORT. One lemma per field for every named update of the state, so that no proof unfolds a record update. -/

namespace Sys2Proof.Machine

section raise
variable (c : Cause) (s : State)
@[simp] theorem raise_phase : (raise c s).phase = .faulted := rfl
@[simp] theorem raise_cause : (raise c s).cause = c := rfl
@[simp] theorem raise_var : (raise c s).var = s.var := rfl
@[simp] theorem raise_h : (raise c s).h = s.h := rfl
@[simp] theorem raise_tl : (raise c s).tl = s.tl := rfl
@[simp] theorem raise_blk : (raise c s).blk = s.blk := rfl
@[simp] theorem raise_bu : (raise c s).bu = s.bu := rfl
@[simp] theorem raise_res : (raise c s).res = s.res := rfl
@[simp] theorem raise_port : (raise c s).port = s.port := rfl
end raise

section writeRes
variable {w : Nat} (v : BitVec w) (s : State)
@[simp] theorem writeRes_res : (writeRes v s).res = v.setWidth 128 := rfl
@[simp] theorem writeRes_phase : (writeRes v s).phase = s.phase := rfl
@[simp] theorem writeRes_cause : (writeRes v s).cause = s.cause := rfl
@[simp] theorem writeRes_var : (writeRes v s).var = s.var := rfl
@[simp] theorem writeRes_h : (writeRes v s).h = s.h := rfl
@[simp] theorem writeRes_tl : (writeRes v s).tl = s.tl := rfl
@[simp] theorem writeRes_blk : (writeRes v s).blk = s.blk := rfl
@[simp] theorem writeRes_bu : (writeRes v s).bu = s.bu := rfl
@[simp] theorem writeRes_port : (writeRes v s).port = s.port := rfl
end writeRes

section compressBlock
variable (blk : List Byte) (s : State)
@[simp] theorem compressBlock_h : (compressBlock blk s).h = nextChain s.var s.h blk := rfl
@[simp] theorem compressBlock_phase : (compressBlock blk s).phase = s.phase := rfl
@[simp] theorem compressBlock_cause : (compressBlock blk s).cause = s.cause := rfl
@[simp] theorem compressBlock_var : (compressBlock blk s).var = s.var := rfl
@[simp] theorem compressBlock_tl : (compressBlock blk s).tl = s.tl := rfl
@[simp] theorem compressBlock_blk : (compressBlock blk s).blk = s.blk := rfl
@[simp] theorem compressBlock_bu : (compressBlock blk s).bu = s.bu := rfl
@[simp] theorem compressBlock_res : (compressBlock blk s).res = s.res := rfl
@[simp] theorem compressBlock_port : (compressBlock blk s).port = s.port := rfl
end compressBlock

section freshContext
variable (v : Variant) (s : State)
@[simp] theorem freshContext_phase : (freshContext v s).phase = .absorbing := rfl
@[simp] theorem freshContext_var : (freshContext v s).var = v := rfl
@[simp] theorem freshContext_h : (freshContext v s).h = (rom v).IV.map (·.setWidth 64) := rfl
@[simp] theorem freshContext_tl : (freshContext v s).tl = 0 := rfl
@[simp] theorem freshContext_blk : (freshContext v s).blk = clearedBuffer := rfl
@[simp] theorem freshContext_bu : (freshContext v s).bu = 0 := rfl
@[simp] theorem freshContext_cause : (freshContext v s).cause = s.cause := rfl
@[simp] theorem freshContext_res : (freshContext v s).res = s.res := rfl
@[simp] theorem freshContext_port : (freshContext v s).port = s.port := rfl
end freshContext

section reset
@[simp] theorem reset_phase : State.reset.phase = .unconfigured := rfl
@[simp] theorem reset_var : State.reset.var = .sha224 := rfl
@[simp] theorem reset_h : State.reset.h = Words8.zero 64 := rfl
@[simp] theorem reset_tl : State.reset.tl = 0 := rfl
@[simp] theorem reset_blk : State.reset.blk = [] := rfl
@[simp] theorem reset_bu : State.reset.bu = 0 := rfl
@[simp] theorem reset_cause : State.reset.cause = .none := rfl
@[simp] theorem reset_res : State.reset.res = 0 := rfl
@[simp] theorem reset_port : State.reset.port = [] := rfl
variable (s : State)
@[simp] theorem resetCore_eq : resetCore s = { State.reset with port := s.port } := rfl
@[simp] theorem hostWrites_port (cmd : CmdWord) : (hostWrites cmd s).port = .write cmd :: s.port := rfl
end reset

end Sys2Proof.Machine
end

