-- ==== Sys2Proof/Laws/Ops.lean ====
section
/-! SUPPORT. What each shared operation can do, said once: proofs cite these and do not unfold the operations. -/

namespace Sys2Proof.Machine

/-- The block in use is at most the physical buffer. -/
theorem blockBytes_le (v : Variant) : (rom v).blockBytes ≤ Config.bufferBytes := by cases v <;> decide

theorem blockBytes_pos (v : Variant) : 0 < (rom v).blockBytes := by cases v <;> decide

/-- The length field is shorter than the block by more than the marker. -/
theorem lenBytes_lt (v : Variant) : (rom v).lenBytes + 1 < (rom v).blockBytes := by cases v <;> decide

theorem wordBytes_pos (v : Variant) : 0 < (rom v).wordBytes := by cases v <;> decide

theorem lenBits_le (v : Variant) : (rom v).lenBits ≤ 128 := by cases v <;> decide

theorem wb_le (v : Variant) : (rom v).wb ≤ 64 := by cases v <;> decide

@[simp] theorem variantOfCode_variantCode (v : Variant) : variantOfCode (variantCode v) = some v := by
  cases v <;> decide

/-- A code selects a variant exactly when it is the variant's. -/
theorem variantOfCode_eq_some {var : BitVec 4} {v : Variant} : variantOfCode var = some v ↔ var = variantCode v := by
  revert var; cases v <;> decide

/-- Codes 5 to 15 select none. -/
theorem variantOfCode_eq_none {var : BitVec 4} : variantOfCode var = none ↔ 5 ≤ var.toNat := by
  revert var; decide

@[simp] theorem wordToBytesBE_length (x n : Nat) : (wordToBytesBE x n).length = n := by simp [wordToBytesBE]

@[simp] theorem lengthField_length (v : Variant) (tl : BitVec 128) : (lengthField v tl).length = (rom v).lenBytes :=
  wordToBytesBE_length _ _

/-- TL after one more byte. -/
theorem countByte_toNat (v : Variant) (tl : BitVec 128) :
    (countByte v tl).toNat = (tl.toNat + 1) % 2 ^ (rom v).lenBits := by
  have h : (tl.toNat + 1) % 2 ^ (rom v).lenBits < 2 ^ 128 :=
    lt_of_lt_of_le (Nat.mod_lt _ (by positivity)) (Nat.pow_le_pow_right (by norm_num) (lenBits_le v))
  simp only [countByte, BitVec.toNat_ofNat]
  exact Nat.mod_eq_of_lt h

/-- A compression of the buffer always answers: the block lies inside it. -/
theorem compressBuffer_eq (s : State) : compressBuffer s = .ok (compressBlock (wholeBlock s) s) := by
  unfold compressBuffer
  rw [memRead_ok (by simpa using blockBytes_le s.var)]
  simp [wholeBlock, bind, Except.bind, pure, Except.pure]

/-- The end of ABSORB always answers. -/
theorem compressIfFull_eq (s : State) :
    compressIfFull s = .ok (if s.bu.toNat = (rom s.var).blockBytes then
      { compressBlock (wholeBlock s) s with bu := 0 } else s) := by
  unfold compressIfFull
  split_ifs
  · simp [compressBuffer_eq, bind, Except.bind, pure, Except.pure]
  · rfl

/-- The state ABSORB leaves in ABSORBING, when BLK[BU] exists. -/
def afterByte (b : Byte) (s : State) : State :=
  let t := { s with blk := writeByte s.bu.toNat b s.blk, bu := s.bu + 1, tl := countByte s.var s.tl }
  if t.bu.toNat = (rom s.var).blockBytes then { compressBlock (wholeBlock t) t with bu := 0 } else t

/-- ABSORB's byte is accepted exactly when BLK[BU] exists. -/
theorem acceptByte_eq (b : Byte) (s : State) :
    acceptByte b s = if s.bu.toNat < Config.bufferBytes then .ok (afterByte b s) else .error .noSuchBlockByte := by
  unfold acceptByte memWrite
  by_cases h : s.bu.toNat < Config.bufferBytes
  · rw [if_pos (by simp; omega), if_pos h]
    simp only [bind, Except.bind, compressIfFull_eq, afterByte, writeBytes]
  · rw [if_neg (by simp; omega), if_neg h]; rfl

/-- BLK after steps 1 to 3 of FINAL. -/
def paddedBuffer (s : State) : Memory :=
  let B := (rom s.var).blockBytes
  let u := s.bu.toNat
  let m := writeBytes (u + 1) (List.replicate (B - (u + 1)) 0) (writeByte u 0x80 s.blk)
  let m := if needsExtraBlock s.var u then writeBytes 0 (List.replicate B 0) m else m
  writeBytes (B - (rom s.var).lenBytes) (lengthField s.var s.tl) m

/-- The state with the marker and the zero fill, whose block the extra compression of FINAL reads. -/
def markedState (s : State) : State :=
  let zeros := List.replicate ((rom s.var).blockBytes - (s.bu.toNat + 1)) 0
  { s with blk := writeBytes (s.bu.toNat + 1) zeros (writeByte s.bu.toNat 0x80 s.blk) }

/-- The state FINAL leaves in ABSORBING, when BLK[BU] exists. -/
def afterFinal (s : State) : State :=
  let h := if needsExtraBlock s.var s.bu.toNat then nextChain s.var s.h (wholeBlock (markedState s)) else s.h
  let t := { s with blk := paddedBuffer s, h := h }
  { t with h := nextChain s.var h (wholeBlock t), bu := 0, phase := .finalized }

/-- FINAL's padding exists exactly when BLK[BU] does. -/
theorem finalize_eq (s : State) :
    finalize s = if s.bu.toNat < Config.bufferBytes then .ok (afterFinal s) else .error .noSuchBlockByte := by
  have hB := blockBytes_le s.var
  have hL := lenBytes_lt s.var
  by_cases h : s.bu.toNat < Config.bufferBytes
  · rw [if_pos h]
    have h1 : memWrite s.bu.toNat [0x80] s.blk = .ok (writeByte s.bu.toNat 0x80 s.blk) :=
      memWrite_ok (by simp; omega)
    have h2 : memWrite (s.bu.toNat + 1) (List.replicate ((rom s.var).blockBytes - (s.bu.toNat + 1)) 0)
        (writeByte s.bu.toNat 0x80 s.blk) = .ok (markedState s).blk := memWrite_ok (by simp; omega)
    have h4 (m : Memory) : memWrite 0 (List.replicate (rom s.var).blockBytes 0) m =
        .ok (writeBytes 0 (List.replicate (rom s.var).blockBytes 0) m) := memWrite_ok (by simpa using hB)
    have h5 (m : Memory) : memWrite ((rom s.var).blockBytes - (rom s.var).lenBytes) (lengthField s.var s.tl) m =
        .ok (writeBytes ((rom s.var).blockBytes - (rom s.var).lenBytes) (lengthField s.var s.tl) m) :=
      memWrite_ok (by simp; omega)
    simp only [finalize, padMarker, padExtraBlock, padLength, bind, Except.bind, pure, Except.pure, h1, h2,
      compressBuffer_eq]
    by_cases hx : needsExtraBlock s.var s.bu.toNat = true
    · simp only [hx, if_true, h4, h5, compressBlock_var, compressBlock_blk, compressBlock_tl, afterFinal, paddedBuffer]
      rfl
    · simp only [hx, Bool.false_eq_true, if_false, h5, afterFinal, paddedBuffer]
      rfl
  · rw [if_neg h]
    have h1 : memWrite s.bu.toNat [0x80] s.blk = .error .noSuchBlockByte := by
      unfold memWrite; rw [if_neg (by simp; omega)]
    simp only [finalize, padMarker, bind, Except.bind, h1]

end Sys2Proof.Machine
end

