-- ==== Sys2Proof/Laws/Exec.lean ====
section
/-! SUPPORT. What each command can do, one lemma per command and phase, with the end states of Laws/Ops.lean. -/

namespace Sys2Proof.Machine

section phases
variable {s : State}

theorem exec_absorb_of_absorbing (b : Byte) (h : s.phase = .absorbing) (hb : s.bu.toNat < Config.bufferBytes) :
    exec (.absorb b) s = .next (afterByte b s) := by
  simp [exec, execAbsorb, h, acceptByte_eq, hb, finish]

theorem exec_final_of_absorbing (h : s.phase = .absorbing) (hb : s.bu.toNat < Config.bufferBytes) :
    exec .final s = .next (afterFinal s) := by
  simp [exec, execFinal, h, finalize_eq, hb, finish]

theorem exec_init_of_variant (v : Variant) (h : s.phase ≠ .faulted) :
    exec (.init (variantCode v)) s = .next (freshContext v s) := by
  cases hp : s.phase <;> simp_all [exec, execInit]

theorem exec_init_of_reserved {var : BitVec 4} (h : s.phase ≠ .faulted) (hv : 5 ≤ var.toNat) :
    exec (.init var) s = .next (raise .badVariant s) := by
  have := variantOfCode_eq_none.2 hv
  cases hp : s.phase <;> simp_all [exec, execInit]

theorem exec_rdbyte_of_finalized {k : BitVec 8} (h : s.phase = .finalized) (hk : k.toNat < (rom s.var).dl) :
    exec (.rdbyte k) s = .next (writeRes (digestByte s k.toNat) s) := by
  simp [exec, execRdbyte, h, imm8Index, hk]

theorem exec_rdbyte_of_out_of_range {k : BitVec 8} (h : s.phase = .finalized) (hk : (rom s.var).dl ≤ k.toNat) :
    exec (.rdbyte k) s = .next (raise .digestIndex s) := by
  simp [exec, execRdbyte, h, imm8Index, hk]

theorem exec_size_of_context (h : s.phase = .absorbing ∨ s.phase = .finalized) :
    exec .size s = .next (writeRes s.tl s) := by
  rcases h with h | h <;> simp [exec, execSize, h]

@[simp] theorem exec_rdstat : exec .rdstat s = .next (writeRes (status s) s) := rfl

/-- In FAULTED every command but RDSTAT is ignored (`60_exceptions.md` R1111). -/
theorem exec_of_faulted {i : Instr} (h : s.phase = .faulted) (hi : i ≠ .rdstat) : exec i s = .next s := by
  cases i <;> simp_all [exec, execInit, execAbsorb, execFinal, execRdbyte, execSize]

theorem execIllegal_of_faulted (h : s.phase = .faulted) : execIllegal s = .next s := by simp [execIllegal, h]

theorem execIllegal_of_not_faulted (h : s.phase ≠ .faulted) : execIllegal s = .next (raise .illegalCmd s) := by
  cases hp : s.phase <;> simp_all [execIllegal]

/-- In UNCONFIGURED, ABSORB, FINAL, RDBYTE and SIZE raise NOT_CONFIGURED (`60_exceptions.md` R1100). -/
theorem exec_of_unconfigured {i : Instr} (h : s.phase = .unconfigured) (hv : ∀ v, i ≠ .init v) (hi : i ≠ .rdstat) :
    exec i s = .next (raise .notConfigured s) := by
  cases i <;> simp_all [exec, execAbsorb, execFinal, execRdbyte, execSize]

end phases

section fields
variable (b : Byte) (s : State)

@[simp] theorem afterByte_phase : (afterByte b s).phase = s.phase := by simp only [afterByte]; split_ifs <;> rfl
@[simp] theorem afterByte_var : (afterByte b s).var = s.var := by simp only [afterByte]; split_ifs <;> rfl
@[simp] theorem afterByte_cause : (afterByte b s).cause = s.cause := by simp only [afterByte]; split_ifs <;> rfl
@[simp] theorem afterByte_res : (afterByte b s).res = s.res := by simp only [afterByte]; split_ifs <;> rfl
@[simp] theorem afterByte_port : (afterByte b s).port = s.port := by simp only [afterByte]; split_ifs <;> rfl
@[simp] theorem afterByte_tl : (afterByte b s).tl = countByte s.var s.tl := by
  simp only [afterByte]; split_ifs <;> rfl
@[simp] theorem afterByte_blk : (afterByte b s).blk = writeByte s.bu.toNat b s.blk := by
  simp only [afterByte]; split_ifs <;> rfl

@[simp] theorem afterFinal_phase : (afterFinal s).phase = .finalized := rfl
@[simp] theorem afterFinal_var : (afterFinal s).var = s.var := rfl
@[simp] theorem afterFinal_cause : (afterFinal s).cause = s.cause := rfl
@[simp] theorem afterFinal_res : (afterFinal s).res = s.res := rfl
@[simp] theorem afterFinal_port : (afterFinal s).port = s.port := rfl
@[simp] theorem afterFinal_tl : (afterFinal s).tl = s.tl := rfl
@[simp] theorem afterFinal_bu : (afterFinal s).bu = 0 := rfl
@[simp] theorem afterFinal_blk : (afterFinal s).blk = paddedBuffer s := rfl

end fields

/-- BU after ABSORB, while the block does not fill. -/
theorem afterByte_bu_of_lt (b : Byte) {s : State} (h : s.bu.toNat + 1 < (rom s.var).blockBytes) :
    (afterByte b s).bu = s.bu + 1 ∧ (s.bu + 1).toNat = s.bu.toNat + 1 ∧ (afterByte b s).h = s.h := by
  have hB : (rom s.var).blockBytes ≤ 128 := blockBytes_le s.var
  have hn : (s.bu + 1).toNat = s.bu.toNat + 1 := by
    rw [BitVec.toNat_add]; simp; omega
  refine ⟨?_, hn, ?_⟩ <;> simp only [afterByte] <;> rw [if_neg (by rw [hn]; omega)]

/-- BU and H after the ABSORB that fills the block. -/
theorem afterByte_of_full (b : Byte) {s : State} (h : s.bu.toNat + 1 = (rom s.var).blockBytes) :
    (afterByte b s).bu = 0 ∧ (afterByte b s).h = nextChain s.var s.h (wholeBlock (afterByte b s)) := by
  have hB : (rom s.var).blockBytes ≤ 128 := blockBytes_le s.var
  have hn : (s.bu + 1).toNat = (rom s.var).blockBytes := by
    rw [BitVec.toNat_add]; simp; omega
  have h2 : afterByte b s = _ := if_pos hn
  rw [h2]
  exact ⟨rfl, rfl⟩

/-- A list of zero bytes reads as zero everywhere. -/
theorem getD_replicate_zero (n i : Nat) : (List.replicate n (0 : Byte)).getD i 0 = 0 := by
  by_cases h : i < n <;> simp [List.getD, h]

/-- The marker and the zero fill keep the canonical form. -/
theorem markedState_wf {s : State} (hw : Memory.wf s.blk)
    (hb : s.bu.toNat < (rom s.var).blockBytes) : Memory.wf (markedState s).blk := by
  have hB := blockBytes_le s.var
  exact writeBytes_wf (writeByte_wf hw (by omega)) (by simp; omega)

/-- BLK with the marker and the zero fill (`44_finalize.md` R801 step 1). -/
theorem readByte_markedState {s : State} (hw : Memory.wf s.blk)
    (hb : s.bu.toNat < (rom s.var).blockBytes) (i : Nat) : readByte i (markedState s).blk =
      if (rom s.var).blockBytes ≤ i then readByte i s.blk
      else if i < s.bu.toNat then readByte i s.blk
      else if i = s.bu.toNat then 0x80 else 0 := by
  have hB := blockBytes_le s.var
  simp only [markedState]
  rw [readByte_writeBytes (writeByte_wf hw (by omega)) (by simp; omega), readByte_writeByte hw, getD_replicate_zero]
  simp only [List.length_replicate]
  split_ifs <;> first | rfl | omega

/-- FINAL's padding keeps the canonical form. -/
theorem paddedBuffer_wf {s : State} (hw : Memory.wf s.blk)
    (hb : s.bu.toNat < (rom s.var).blockBytes) : Memory.wf (paddedBuffer s) := by
  have hB := blockBytes_le s.var
  have hL := lenBytes_lt s.var
  have hm := markedState_wf hw hb
  refine writeBytes_wf ?_ (by simp; omega)
  split_ifs
  · exact writeBytes_wf hm (by simpa)
  · exact hm

/-- BLK after steps 1 to 3 of FINAL (`44_finalize.md` R801). -/
theorem readByte_paddedBuffer {s : State} (hw : Memory.wf s.blk)
    (hb : s.bu.toNat < (rom s.var).blockBytes) (i : Nat) : readByte i (paddedBuffer s) =
        if (rom s.var).blockBytes ≤ i then readByte i s.blk
        else if (rom s.var).blockBytes - (rom s.var).lenBytes ≤ i then
          (wordToBytesBE (s.tl.toNat * 8 % 2 ^ (rom s.var).lenBits) (rom s.var).lenBytes).getD
            (i - ((rom s.var).blockBytes - (rom s.var).lenBytes)) 0
        else if (rom s.var).blockBytes - s.bu.toNat - 1 < (rom s.var).lenBytes then 0
        else if i < s.bu.toNat then readByte i s.blk
        else if i = s.bu.toNat then 0x80 else 0 := by
  have hB := blockBytes_le s.var
  have hL := lenBytes_lt s.var
  have hm := markedState_wf hw hb
  have hr := readByte_markedState hw hb
  by_cases hx : needsExtraBlock s.var s.bu.toNat = true
  · have he : paddedBuffer s = writeBytes ((rom s.var).blockBytes - (rom s.var).lenBytes)
        (lengthField s.var s.tl) (writeBytes 0 (List.replicate (rom s.var).blockBytes 0)
          (markedState s).blk) := by
      simp only [paddedBuffer, if_pos hx]; rfl
    rw [he, readByte_writeBytes (writeBytes_wf hm (by simpa)) (by simp; omega),
      readByte_writeBytes hm (by simpa), getD_replicate_zero, hr]
    simp [needsExtraBlock] at hx
    simp only [lengthField_length, List.length_replicate]
    unfold lengthField
    split_ifs <;> first | rfl | omega
  · have he : paddedBuffer s = writeBytes ((rom s.var).blockBytes - (rom s.var).lenBytes)
        (lengthField s.var s.tl) (markedState s).blk := by
      simp only [paddedBuffer, if_neg hx]; rfl
    rw [he, readByte_writeBytes hm (by simp; omega), hr]
    simp [needsExtraBlock] at hx
    simp only [lengthField_length]
    unfold lengthField
    split_ifs <;> first | rfl | omega

/-- Every way a command can complete, with the state it leaves. -/
inductive ExecResult (i : Instr) (s : State) : State → Prop where
  | same : s.phase = .faulted → i ≠ .rdstat → ExecResult i s s
  | fault (c) : s.phase ≠ .faulted → c ≠ .none → ExecResult i s (raise c s)
  | init (v) : i = .init (variantCode v) → s.phase ≠ .faulted → ExecResult i s (freshContext v s)
  | absorb (b) : i = .absorb b → s.phase = .absorbing → s.bu.toNat < Config.bufferBytes → ExecResult i s (afterByte b s)
  | final : i = .final → s.phase = .absorbing → s.bu.toNat < Config.bufferBytes → ExecResult i s (afterFinal s)
  | rdbyte (k : BitVec 8) : i = .rdbyte k → s.phase = .finalized → k.toNat < (rom s.var).dl →
      ExecResult i s (writeRes (digestByte s k.toNat) s)
  | size : i = .size → (s.phase = .absorbing ∨ s.phase = .finalized) → ExecResult i s (writeRes s.tl s)
  | rdstat : i = .rdstat → ExecResult i s (writeRes (status s) s)

/-- Every completed command is one of these: all that a command can do, guards included. -/
theorem exec_cases {i : Instr} {s t : State} (h : exec i s = .next t) : ExecResult i s t := by
  by_cases hf : s.phase = .faulted
  · by_cases hi : i = .rdstat
    · subst hi; cases h; exact .rdstat rfl
    · rw [exec_of_faulted hf hi] at h; cases h; exact .same hf hi
  · cases i with
    | init v =>
      by_cases hv : 5 ≤ v.toNat
      · rw [exec_init_of_reserved hf hv] at h; cases h; exact .fault _ hf (by simp)
      · obtain ⟨u, hu⟩ := Option.ne_none_iff_exists'.1 (mt variantOfCode_eq_none.1 hv)
        rw [variantOfCode_eq_some] at hu; subst hu
        rw [exec_init_of_variant _ hf] at h; cases h; exact .init _ rfl hf
    | absorb b =>
      simp only [exec, execAbsorb, acceptByte_eq] at h
      split at h
      · exact absurd ‹_› hf
      · cases h; exact .fault _ hf (by simp)
      · cases h; exact .fault _ hf (by simp)
      · split_ifs at h with hb
        · cases h; exact .absorb _ rfl ‹_› hb
        · cases h
    | final =>
      simp only [exec, execFinal, finalize_eq] at h
      split at h
      · exact absurd ‹_› hf
      · cases h; exact .fault _ hf (by simp)
      · cases h; exact .fault _ hf (by simp)
      · split_ifs at h with hb
        · cases h; exact .final rfl ‹_› hb
        · cases h
    | rdbyte k =>
      by_cases hp : s.phase = .finalized
      · by_cases hk : k.toNat < (rom s.var).dl
        · rw [exec_rdbyte_of_finalized hp hk] at h; cases h; exact .rdbyte _ rfl hp hk
        · rw [exec_rdbyte_of_out_of_range hp (by omega)] at h; cases h; exact .fault _ hf (by simp)
      · simp only [exec, execRdbyte] at h
        split at h
        · exact absurd ‹_› hf
        · cases h; exact .fault _ hf (by simp)
        · cases h; exact .fault _ hf (by simp)
        · exact absurd ‹_› hp
    | size =>
      simp only [exec, execSize] at h
      split at h
      · exact absurd ‹_› hf
      · cases h; exact .fault _ hf (by simp)
      · cases h; exact .size rfl (.inl ‹_›)
      · cases h; exact .size rfl (.inr ‹_›)
    | rdstat => cases h; exact .rdstat rfl

/-- No command touches the host's pending actions. -/
theorem exec_port {i : Instr} {s t : State} (h : exec i s = .next t) : t.port = s.port := by
  cases exec_cases h with
  | same => rfl
  | fault => rfl
  | init => rfl
  | absorb => simp
  | final => rfl
  | rdbyte => rfl
  | size => rfl
  | rdstat => rfl

end Sys2Proof.Machine
end

