-- ==== Sys2Proof/Laws/PerInstr.lean ====
section
/-! SUPPORT. For every command: its encoding has its opcode in cmd[31:28] and is a well-formed word
(`30_encoding.md` R301, R306). -/

namespace Sys2Proof.Laws.EncodedOpcode

/-- The encoding of a command carries its opcode and is well formed. -/
def Statement (i : Instr) : Prop := opField (encode i) = opcodeOf i ∧ wordWellFormed (encode i) = true

theorem init (var : BitVec 4) : Statement (.init var) := ⟨(fieldsV _ _ _).1, by revert var; decide⟩

theorem absorb (b : BitVec 8) : Statement (.absorb b) := ⟨(fieldsB _ _ _).1, by revert b; decide +kernel⟩

theorem final : Statement .final := by unfold Statement; decide

theorem rdbyte (i : BitVec 8) : Statement (.rdbyte i) := ⟨(fieldsB _ _ _).1, by revert i; decide +kernel⟩

theorem size : Statement .size := by unfold Statement; decide

theorem rdstat : Statement .rdstat := by unfold Statement; decide

end Sys2Proof.Laws.EncodedOpcode
end

