-- ==== Sys2Proof/Laws/Run.lean ====
section
/-! SUPPORT. Runs of several steps, and command sequences. -/

namespace Sys2Proof.Machine

/-- The model's runs are the host interface's. -/
theorem core_run_eq_runSteps (n : Nat) (s : State) : Host.Core.run Sys2Proof.core n s = runSteps n s := by
  induction n generalizing s with
  | zero => rfl
  | succ n ih =>
    cases h : step s with
    | next t =>
      have h' : Sys2Proof.core.step s = .next t := h
      simp only [Host.Core.run, runSteps, h, h']
      exact ih t
    | fault f =>
      have h' : Sys2Proof.core.step s = .fault f := h
      simp only [Host.Core.run, runSteps, h, h']
      rfl
    | refused r =>
      have h' : Sys2Proof.core.step s = .refused r := h
      simp only [Host.Core.run, runSteps, h, h']
      rfl

/-- A command sequence in two parts. -/
theorem execAll_append {cmds cmds' : List Instr} {s t : State} (h : execAll cmds s = .next t) :
    execAll (cmds ++ cmds') s = execAll cmds' t := by
  induction cmds generalizing s with
  | nil => cases h; rfl
  | cons i cmds ih =>
    simp only [execAll, List.cons_append] at h ⊢
    cases hi : exec i s with
    | next u => rw [hi] at h; exact ih h
    | fault f => rw [hi] at h; cases h
    | refused r => rw [hi] at h; cases h

/-- A command sequence whose first command completes. -/
theorem execAll_cons {i : Instr} {cmds : List Instr} {s t : State} (h : exec i s = .next t) :
    execAll (i :: cmds) s = execAll cmds t := by simp [execAll, h]

end Sys2Proof.Machine
end

