-- ==== Sys2Proof/Tests/Slice0.lean ====
section
/-! SUPPORT. The model's own tests. Words are written out from the formats of `30_encoding.md`; expected values are those
of `95_test_vectors.md`, by section. At the end, one witness per statement that has hypotheses. -/

namespace Sys2Proof.Tests

open Sys2Proof Sys2Proof.Machine

/- ### Well-formedness: one ill-formed term per check -/

theorem test_word_op_zero_refused : wordWellFormed 0b0000_0000000000000000000000000000 = false := by decide
theorem test_word_op_seven_refused : wordWellFormed 0b0111_0000000000000000000000000000 = false := by decide
theorem test_word_op_fifteen_refused : wordWellFormed 0b1111_0000000000000000000000000000 = false := by decide
theorem test_word_init_zero_field_refused : wordWellFormed 0b0001_000000000000000000000001_0000 = false := by decide
theorem test_word_absorb_zero_field_refused : wordWellFormed 0b0010_00000000000000000001_00000000 = false := by decide
theorem test_word_final_zero_field_refused : wordWellFormed 0b0011_0000000000000000000000000001 = false := by decide
theorem test_word_rdbyte_zero_field_refused : wordWellFormed 0b0100_10000000000000000000_00000000 = false := by decide
theorem test_word_size_zero_field_refused : wordWellFormed 0b0101_1000000000000000000000000000 = false := by decide
theorem test_word_rdstat_zero_field_refused : wordWellFormed 0b0110_0000000000000000000000000001 = false := by decide
theorem test_source_init_refused : Source.wellFormed (.init (.numbered 16)) = false := by decide
theorem test_source_absorb_refused : Source.wellFormed (.absorb 256) = false := by decide
theorem test_source_rdbyte_refused : Source.wellFormed (.rdbyte 256) = false := by decide
theorem test_source_absorbs_refused : Source.wellFormed (.absorbs [0, 256]) = false := by decide
theorem test_source_hash_variant_refused : Source.wellFormed (.hash (.numbered 16) [0]) = false := by decide
theorem test_source_hash_bytes_refused : Source.wellFormed (.hash (.named .sha256) [256]) = false := by decide

/- ### Decoding: words bit by bit, op, zero field, operand field -/

theorem test_decode_init : decode 0b0001_000000000000000000000000_1011 = .ok (.init 0b1011) := by decide
theorem test_decode_absorb : decode 0b0010_00000000000000000000_10010110 = .ok (.absorb 0b10010110) := by decide
theorem test_decode_final : decode 0b0011_0000000000000000000000000000 = .ok .final := by decide
theorem test_decode_rdbyte : decode 0b0100_00000000000000000000_01100001 = .ok (.rdbyte 0b01100001) := by decide
theorem test_decode_size : decode 0b0101_0000000000000000000000000000 = .ok .size := by decide
theorem test_decode_rdstat : decode 0b0110_0000000000000000000000000000 = .ok .rdstat := by decide
theorem test_decode_table_word : decodeTableWord 32 0x200000ff = some (.absorb 0xff) ∧
    decodeTableWord 32 0x20000100 = none := by decide

/- ### Helpers -/

/-- A context of variant v in phase p: the initial chain value, an empty buffer but for BU and TL as given. -/
def ctx (v : Variant) (p : Phase) (bu : BitVec 8) (tl : BitVec 128) : State :=
  { State.reset with phase := p, var := v, h := initialChain v, bu := bu, tl := tl }

/-- SHA-256 after "abc" (program P1, step 4). -/
def abc256 : State := { ctx .sha256 .absorbing 3 3 with blk := [(0, 0x61), (1, 0x62), (2, 0x63)] }

/-- SHA-256 of "abc", finalized (program P1, step 5). -/
def abcDone : State :=
  let h : Words8 64 := ⟨0xba7816bf, 0x8f01cfea, 0x414140de, 0x5dae2223, 0xb00361a3, 0x96177a9c, 0xb410ff61, 0xf20015ad⟩
  { ctx .sha256 .finalized 0 3 with h := h, blk := [(0, 0x61), (1, 0x62), (2, 0x63), (3, 0x80), (63, 0x18)] }

/-- A fault after an earlier result: SHA-256, FAULTED with ABSORB_AFTER_FINAL (program P4). -/
def faulted256 : State := { ctx .sha256 .faulted 0 0 with cause := .absorbAfterFinal, res := 0x12 }

/-- An outcome that is a next state with a property. -/
def nextSat (o : Host.Outcome State Fault Refusal) (p : State → Bool) : Bool :=
  match o with
  | .next t => p t
  | .fault _ => false
  | .refused _ => false

/-- The step that carries out one written word. -/
def stepWord (w : Nat) (s : State) : Host.Outcome State Fault Refusal := step (s.withFetchWord 32 w)

/- ### The commands, one step each (sections 2.5 to 2.9 and the programs) -/

theorem test_init_from_reset : nextSat (stepWord 0x10000003 State.reset) (fun t =>
    t == ctx .sha512 .absorbing 0 0 && status t == 0x00000031) = true := by decide

theorem test_init_discards_and_faults : nextSat (stepWord 0x10000001 abcDone) (· == ctx .sha256 .absorbing 0 0) = true ∧
    nextSat (stepWord 0x10000009 abcDone) (· == { abcDone with phase := .faulted, cause := .badVariant }) = true := by
  decide

theorem test_absorb_byte : nextSat (stepWord 0x20000061 (ctx .sha256 .absorbing 0 0)) (fun t =>
    t.blk == [(0, 0x61)] && t.tl == 1 && status t == 0x00000111) = true := by decide

/-- The 64th byte of the message 0x00 to 0x3f, with TL at its largest: one compression, BU = 0, TL wraps (section 2.5,
program P5). -/
theorem test_absorb_fills_block :
    let blk : Memory := (List.range 62).map fun i => (i + 1, BitVec.ofNat 8 (i + 1))
    nextSat (stepWord 0x2000003f { ctx .sha256 .absorbing 63 (2 ^ 64 - 1) with blk := blk }) (fun t =>
      t.bu == 0 && t.tl == 0 && t.phase == .absorbing && t.h.a == 0xfc99a2df && t.h.h == 0x5abe84a7) = true := by
  decide +kernel

/-- Program P1: one compression; the block and H after FINAL. -/
theorem test_final_abc : nextSat (stepWord 0x30000000 abc256) (· == abcDone) = true := by decide +kernel

/-- The last row of section 2.6.3: TL = 2^125 with SHA-512 has the length field 0, and the digest of the empty message. -/
theorem test_final_length_modulus : nextSat (stepWord 0x30000000 (ctx .sha512 .absorbing 0 (2 ^ 125))) (fun t =>
    t.h.a == 0xcf83e1357eefb8bd && t.h.h == 0xa538327af927da3e && t.blk == [(0, 0x80)] && t.tl == 2 ^ 125) = true := by decide +kernel

theorem test_rdbyte_digest : nextSat (stepWord 0x40000004 abcDone) (· == { abcDone with res := 0x8f }) = true ∧
    nextSat (stepWord 0x4000001f abcDone) (· == { abcDone with res := 0xad }) = true := by decide

theorem test_rdbyte_faults : nextSat (stepWord 0x40000020 abcDone) (fun t =>
      status t == 0x00070013 && t.res == 0) = true ∧
    nextSat (stepWord 0x400000c8 State.reset) (fun t => status t == 0x00030003) = true := by decide

theorem test_size : nextSat (stepWord 0x50000000 abcDone) (· == { abcDone with res := 3 }) = true ∧
    nextSat (stepWord 0x50000000 State.reset) (fun t => status t == 0x00030003) = true := by decide

theorem test_rdstat : nextSat (stepWord 0x60000000 abc256) (fun t => t.res == 0x00000311) = true ∧
    nextSat (stepWord 0x60000000 abcDone) (fun t => t.res == 0x00000012) = true := by decide

theorem test_rdstat_faulted : nextSat (stepWord 0x60000000 faulted256) (fun t => t.res == 0x00040013) = true ∧
    nextSat (stepWord 0x10000003 faulted256) (· == faulted256) = true ∧
    nextSat (step { faulted256 with port := [.reset] }) (· == State.reset) = true := by decide

theorem test_illegal_word : nextSat (stepWord 0x40000120 abcDone) (fun t => status t == 0x00010013) = true ∧
    nextSat (stepWord 0x70000000 State.reset) (fun t => status t == 0x00010003) = true := by decide

/- ### The datapath (sections 2.1 to 2.4) -/

theorem test_codec : bytesToWordBE [0x61, 0x62, 0x63, 0x80] = 0x61626380 ∧
    wordToBytesBE 0xddaf35a193617aba 8 = [0xdd, 0xaf, 0x35, 0xa1, 0x93, 0x61, 0x7a, 0xba] ∧
    wordToBytesBE 448 8 = [0, 0, 0, 0, 0, 0, 0x01, 0xc0] := by decide

theorem test_primitives : rotr (0x00000001 : BitVec 32) 7 = 0x02000000 ∧ shr (0xffffffff : BitVec 32) 10 = 0x003fffff ∧
    ch (0x510e527f : BitVec 32) 0x9b05688c 0x1f83d9ab = 0x1f85c98c ∧
    maj (0x6a09e667 : BitVec 32) 0xbb67ae85 0x3c6ef372 = 0x3a6fe667 ∧
    rotr (0x0000000000000001 : BitVec 64) 61 = 0x0000000000000008 := by decide

theorem test_sigmas_32 : bigSigma1 (rom .sha256) 0x510e527f = 0x3587272b ∧
    bigSigma0 (rom .sha256) 0x6a09e667 = 0xce20b47e ∧ smallSigma0 (rom .sha224) 0x61626380 = 0x940e90ef ∧
    smallSigma1 (rom .sha224) 0x00000018 = 0x000f0000 := by decide +kernel

theorem test_sigmas_64 : bigSigma1 (rom .sha512) 0x510e527fade682d1 = 0x9427e33bb5c9dbca ∧
    bigSigma0 (rom .sha384) 0x6a09e667f3bcc908 = 0x08c4db56aac80c2a ∧
    smallSigma0 (rom .sha384) 0x6162638000000000 = 0x3012976480000000 ∧
    smallSigma1 (rom .sha512_256) 0x0000000000000018 = 0x00030000000000c0 := by decide +kernel

theorem test_schedule : (expandSchedule (rom .sha256) (wholeBlock abcDone)).getD 18 0 = 0x7da86405 ∧
    (expandSchedule (rom .sha256) (wholeBlock abcDone)).getD 63 0 = 0x12b1edeb ∧
    (expandSchedule (rom .sha256) (List.replicate 64 0xff)).getD 18 0 = 0x20099be4 := by decide +kernel

/-- The zero chain value with the all-zero block: only the constants P.K drive the rounds. -/
theorem test_compress_zero :
    compress (rom .sha256) (Words8.zero _) (expandSchedule (rom .sha256) (List.replicate 64 0)) =
      ⟨0x7ca51614, 0x425c3ba8, 0xce54dd2f, 0xc2020ae7, 0xb6e574d1, 0x98136d0f, 0xae7e26cc, 0xbf0be7a6⟩ ∧
    compress (rom .sha512) (Words8.zero _) (expandSchedule (rom .sha512) (List.replicate 128 0)) =
      ⟨0xad3a5da838ebf830, 0x5d7142ff85fcbedb, 0x7fa8bf86d6f7ca99, 0x1c6b15b039d70bbf,
        0x29f6515289923518, 0x6fd7101d5f2e8f3a, 0x1c358d2476531450, 0x568c0d99d756dc3c⟩ := by decide +kernel

/-- The round of the schedule and the constants in order: the state after round 0 of SHA-256 "abc" (section 2.4). -/
theorem test_round : round (rom .sha256) ivSha256 0x428a2f98 0x61626380 =
    ⟨0x5d6aebcd, 0x6a09e667, 0xbb67ae85, 0x3c6ef372, 0xfa2a4622, 0x510e527f, 0x9b05688c, 0x1f83d9ab⟩ := by
  decide +kernel

/- ### The block buffer's canonical form -/

theorem test_buffer_write_zero_removes : writeByte 5 0 [(3, 1), (5, 2), (9, 3)] = [(3, 1), (9, 3)] ∧
    writeByte 4 7 [(3, 1), (5, 2)] = [(3, 1), (4, 7), (5, 2)] ∧ writeByte 3 7 [(3, 1)] = [(3, 7)] := by decide

theorem test_buffer_last_byte : (memWrite 127 [9] []).toOption = some [(127, 9)] ∧
    (memWrite 128 [9] []).toOption = none := by decide

/- ### The assembler -/

theorem test_assemble_line : parseLine "  ABSORB 0xFf ; a byte".toList = some (some (.absorb 255)) ∧
    parseLine "init sha512_256".toList = some (some (.init (.named .sha512_256))) ∧
    parseLine "Init #9".toList = some (some (.init (.numbered 9))) ∧ parseLine "; only".toList = some none := by
  decide +kernel

theorem test_assemble_lists : parseLine "ABSORBS [0x00, 12]".toList = some (some (.absorbs [0, 12])) ∧
    parseLine "ABSORBS []".toList = some (some (.absorbs [])) ∧
    parseLine "HASH sha256, [1]".toList = some (some (.hash (.named .sha256) [1])) := by decide +kernel

theorem test_assemble_text : parseLine (['A', 'B', 'S', 'O', 'R', 'B', 'S', ' '] ++ [quoteChar, 'a', ';', quoteChar]) =
    some (some (.absorbs [0x61, 0x3b])) ∧ parseLine "FINAL 1".toList = none ∧ parseLine "NOP".toList = none := by
  decide +kernel

theorem test_assemble_program : assembleText ["INIT sha256".toList, [], "ABSORB 0x61".toList, "FINAL".toList] =
    some [0x10000001, 0x20000061, 0x30000000] ∧ assembleText ["DIGEST".toList] = none := by decide +kernel

/- ### Witnesses: concrete states and operands that meet all hypotheses of a statement together, clause by clause, at the
boundary values of BU, of the digest index and of the variant code -/

/-- The states of `ctx` meet the invariant. -/
theorem ctx_inv {v : Variant} {p : Phase} {bu : BitVec 8} {tl : BitVec 128} (hb : bu.toNat < (rom v).blockBytes)
    (ht : tl.toNat < 2 ^ (rom v).lenBits) (hp : p = .absorbing ∨ p = .finalized ∧ bu = 0) : (ctx v p bu tl).Inv where
  bufferCanonical := wf_nil
  fillBelowBlock := hb
  unusedBytesZero := fun _ _ => rfl
  chainFits := by
    show ∀ j, ((initialChain v).get j).toNat < 2 ^ (rom v).wb
    cases v <;> decide
  countFits := ht
  causeIffFaulted := by rcases hp with rfl | ⟨rfl, -⟩ <;> simp [ctx]
  finalizedEmpty := by
    rcases hp with rfl | ⟨rfl, rfl⟩
    · intro h; cases h
    · intro _; rfl
  unconfiguredIsReset := by rcases hp with rfl | ⟨rfl, -⟩ <;> intro h <;> cases h

/-- BU one below P.B. -/
def lastIndex (v : Variant) : BitVec 8 := BitVec.ofNat 8 ((rom v).blockBytes - 1)

theorem lastIndex_lt (v : Variant) : (lastIndex v).toNat < (rom v).blockBytes := by cases v <;> decide

/-- The largest BU whose FINAL takes no extra block, and the smallest whose FINAL does. -/
def lastFit (v : Variant) : BitVec 8 := BitVec.ofNat 8 ((rom v).blockBytes - (rom v).lenBytes - 1)

theorem witness_EncodeOfDecode : decode 0x1000000f = .ok (.init 15) := by decide

theorem witness_ReservedWordsFault : decode 0x58000000 = .error .nonzeroZeroField ∧
    decode 0x70000000 = .error .reservedOpcode ∧ State.reset.phase ≠ .faulted := by decide

theorem witness_StepRunsDecodedCommand : (abc256.withFetchWord 32 0x200000ff).port = .write 0x200000ff :: [] ∧
    decode 0x200000ff = .ok (.absorb 0xff) := by decide

theorem witness_IdleStepHoldsState : abc256.port = [] := rfl

theorem witness_ResetSetsEveryElement :
    commonStep 0x50000000 abcDone = .next (writeRes abcDone.tl abcDone) ∧
    (takeAction .reset faulted256 = .next State.reset ∧ faulted256.cause ≠ .none ∧ State.reset.cause = .none ∧
      faulted256.phase = .faulted ∧ State.reset.phase ≠ .faulted) := ⟨rfl, rfl, by decide⟩

theorem witness_UnconfiguredAcceptsInitAndRdstat : State.reset.Inv ∧ State.reset.phase = .unconfigured ∧
    decode 0 = .error .reservedOpcode ∧ State.reset.port = [] :=
  ⟨⟨wf_nil, by decide, fun _ _ => rfl, by decide, by decide, by decide, by decide, fun _ => rfl⟩, rfl, by decide, rfl⟩

theorem witness_FaultEntryIsPrecise : abcDone.phase ≠ .faulted ∧
    commonStep 0x30000000 abcDone = .next (raise .finalTwice abcDone) ∧
    (raise .finalTwice abcDone).phase = .faulted := ⟨by decide, rfl, rfl⟩

/-- One word and state per row of the cause table, with the row's condition. -/
theorem witness_FaultCauseTable :
    (abcDone.phase ≠ .faulted ∧ ∃ e, decode 0x00000000 = .error e) ∧
    (∃ var : BitVec 4, decode 0x10000005 = .ok (.init var) ∧ 5 ≤ var.toNat) ∧
    (State.reset.phase = .unconfigured ∧ decode 0x30000000 = .ok .final ∧ decode 0x50000000 = .ok .size ∧
      decode 0x20000000 = .ok (.absorb 0) ∧ decode 0x400000c8 = .ok (.rdbyte 200)) ∧
    (abcDone.phase = .finalized ∧ ∃ b, decode 0x20000000 = .ok (.absorb b)) ∧
    (abcDone.phase = .finalized ∧ decode 0x30000000 = .ok .final) ∧
    (abc256.phase = .absorbing ∧ ∃ k, decode 0x40000000 = .ok (.rdbyte k)) ∧
    (abcDone.phase = .finalized ∧ ∃ k : BitVec 8, decode 0x40000020 = .ok (.rdbyte k) ∧
      (rom abcDone.var).dl ≤ k.toNat) :=
  ⟨⟨by decide, _, rfl⟩, ⟨5, by decide, by decide⟩, ⟨rfl, by decide, by decide, by decide, by decide⟩,
    ⟨rfl, 0, by decide⟩, ⟨rfl, by decide⟩, ⟨rfl, 0, by decide⟩, ⟨rfl, 32, by decide, by decide⟩⟩

theorem witness_FaultedUntilReset :
    (faulted256.phase = .faulted ∧ HostAction.reset ∉ [HostAction.write 0x10000001, .write 0x60000000]) ∧
    takeAction .reset faulted256 = .next State.reset ∧ State.reset.phase ≠ .faulted :=
  ⟨⟨rfl, by decide⟩, rfl, by decide⟩

/-- For each format, a word that fails only by its zero field (the second clause of the statements about one command). -/
theorem witness_zeroFields :
    (opField 0x10000010 = 0x1 ∧ zeroFieldV 0x10000010 ≠ 0) ∧ (opField 0x20000100 = 0x2 ∧ zeroFieldB 0x20000100 ≠ 0) ∧
    (opField 0x38000000 = 0x3 ∧ zeroFieldZ 0x38000000 ≠ 0) ∧ (opField 0x48000000 = 0x4 ∧ zeroFieldB 0x48000000 ≠ 0) ∧
    (opField 0x50000001 = 0x5 ∧ zeroFieldZ 0x50000001 ≠ 0) ∧ (opField 0x60000001 = 0x6 ∧ zeroFieldZ 0x60000001 ≠ 0) ∧
    State.reset.phase ≠ .faulted := by decide

theorem witness_InitBuildsContext : (4 : BitVec 4).toNat < 5 ∧ 5 ≤ (5 : BitVec 4).toNat ∧ 5 ≤ (15 : BitVec 4).toNat ∧
    abcDone.phase ≠ .faulted ∧ faulted256.phase = .faulted := by decide

/-- BU = 0, BU = P.B - 2 and BU = P.B - 1, for every variant, with TL at its largest. -/
theorem witness_AbsorbTakesOneByte : (∀ v : Variant,
    let s := ctx v .absorbing (lastIndex v) (BitVec.ofNat 128 (2 ^ (rom v).lenBits - 1))
    s.phase = .absorbing ∧ s.bu.toNat < (rom s.var).blockBytes ∧ Memory.wf s.blk ∧
      s.bu.toNat + 1 = (rom s.var).blockBytes) ∧
    (∀ v : Variant, ((lastIndex v - 1).toNat + 1 < (rom v).blockBytes ∧ (0 : BitVec 8).toNat + 1 < (rom v).blockBytes)) ∧
    State.reset.phase = .unconfigured ∧ abcDone.phase = .finalized ∧ faulted256.phase = .faulted :=
  ⟨fun v => ⟨rfl, lastIndex_lt v, wf_nil, by cases v <;> decide⟩, fun v => by cases v <;> decide, rfl, rfl, rfl⟩

theorem witness_AbsorbCountingLaw : (∀ v : Variant, let s := ctx v .absorbing (lastIndex v) 0
    s.phase = .absorbing ∧ s.bu.toNat < (rom s.var).blockBytes) ∧
    ([0, 1] : List Byte).length = ([2, 3] : List Byte).length ∧
    (ctx .sha256 .absorbing 63 0).bu = ({ ctx .sha256 .absorbing 63 9 with res := 1 } : State).bu :=
  ⟨fun v => ⟨rfl, lastIndex_lt v⟩, rfl, rfl⟩

theorem witness_AbsorbedMessageState : ∀ v : Variant, State.reset.phase ≠ .faulted ∧
    ([0x61, 0x62, 0x63] : List Byte).length < 2 ^ (rom v).lenBits := by intro v; cases v <;> decide

theorem witness_SpanUpdateIsAbsorbSequence : (ctx .sha512 .absorbing 127 5).phase = .absorbing ∧
    (ctx .sha512 .absorbing 127 5).bu.toNat < (rom .sha512).blockBytes := by decide

theorem witness_ChunkIndependence : abc256.phase = .absorbing ∧ abc256.bu.toNat < (rom abc256.var).blockBytes := by
  decide

/-- Both sides of the extra-block boundary, for every variant. -/
theorem witness_FinalPadsAndCompresses : (∀ v : Variant, let s := ctx v .absorbing (lastFit v) 0
    s.phase = .absorbing ∧ s.bu.toNat < (rom s.var).blockBytes ∧ Memory.wf s.blk ∧
      ¬(rom s.var).blockBytes - s.bu.toNat - 1 < (rom s.var).lenBytes) ∧
    (∀ v : Variant, let s := ctx v .absorbing (lastFit v + 1) 0
    s.phase = .absorbing ∧ s.bu.toNat < (rom s.var).blockBytes ∧ Memory.wf s.blk ∧
      (rom s.var).blockBytes - s.bu.toNat - 1 < (rom s.var).lenBytes) ∧
    State.reset.phase = .unconfigured ∧ abcDone.phase = .finalized ∧ faulted256.phase = .faulted :=
  ⟨fun v => ⟨rfl, by cases v <;> decide, wf_nil, by cases v <;> decide⟩,
    fun v => ⟨rfl, by cases v <;> decide, wf_nil, by cases v <;> decide⟩, rfl, rfl, rfl⟩

/-- BU = 55 and 56, 111 and 112, each with its count of compressions. -/
theorem witness_ExtraBlockCondition : compressions .final (ctx .sha224 .absorbing 55 0) = 1 ∧
    compressions .final (ctx .sha224 .absorbing 56 0) = 2 ∧ compressions .final (ctx .sha384 .absorbing 111 0) = 1 ∧
    compressions .final (ctx .sha384 .absorbing 112 0) = 2 ∧
    (∀ v : Variant, (lastIndex v).toNat < (rom v).blockBytes) :=
  ⟨by decide, by decide, by decide, by decide, lastIndex_lt⟩

theorem witness_ExactBlockMessage : ∀ v : Variant, let s := ctx v .absorbing (lastIndex v) 0
    s.phase = .absorbing ∧ s.bu.toNat + 1 = (rom s.var).blockBytes ∧ Memory.wf s.blk :=
  fun v => ⟨rfl, by cases v <;> decide, wf_nil⟩

/-- TL = 2^61 and TL = 0 with SHA-256; FINAL answers a next state from both. -/
theorem witness_LengthModulus : let s := ctx .sha256 .absorbing 0 (2 ^ 61)
    s.tl.toNat * 8 % 2 ^ (rom s.var).lenBits = (0 : BitVec 128).toNat * 8 % 2 ^ (rom s.var).lenBits ∧
    s.phase = .absorbing ∧ exec .final s = .next (afterFinal s) :=
  ⟨by decide +kernel, rfl, exec_final_of_absorbing rfl (by decide)⟩

theorem witness_FinalRunsOnce : abc256.phase = .absorbing ∧ abc256.bu.toNat < (rom abc256.var).blockBytes := by decide

/-- The last digest byte and the first index past the digest, for every variant. -/
theorem witness_RdbyteReadsDigestByte : (∀ v : Variant, (ctx v .finalized 0 0).phase = .finalized ∧
    (BitVec.ofNat 8 ((rom v).dl - 1)).toNat < (rom (ctx v .finalized 0 0).var).dl ∧
    (rom (ctx v .finalized 0 0).var).dl ≤ (BitVec.ofNat 8 (rom v).dl).toNat) ∧
    abc256.phase = .absorbing ∧ State.reset.phase = .unconfigured ∧ faulted256.phase = .faulted :=
  ⟨fun v => ⟨rfl, by cases v <;> decide, by cases v <;> decide⟩, rfl, rfl, rfl⟩

/-- The last byte of the last output word; two states that differ in a word the digest does not reach. -/
theorem witness_DigestLayout : (∀ v : Variant, ∃ j : Fin 8, ∃ k, j.val + 1 = (rom v).ow ∧ j.val < (rom v).ow ∧
      k + 1 = (rom v).wordBytes ∧ k < (rom v).wordBytes) ∧
    (let s := ctx .sha224 .finalized 0 0
      let t := { s with h := { s.h with h := 0 } }
      s.var = t.var ∧ s ≠ t ∧ ∀ j : Fin 8, j.val < (rom s.var).ow → s.h.get j = t.h.get j) := by
  refine ⟨fun v => ?_, by decide⟩
  cases v
  · exact ⟨6, 3, by decide⟩
  · exact ⟨7, 3, by decide⟩
  · exact ⟨5, 7, by decide⟩
  · exact ⟨7, 7, by decide⟩
  · exact ⟨3, 7, by decide⟩

theorem witness_DigestCommandsDeliverDigest : abcDone.phase = .finalized ∧
    (rom abcDone.var).dl ≤ (32 : BitVec 8).toNat := by decide

theorem witness_SizeReadsCount : abc256.phase = .absorbing ∧ abcDone.phase = .finalized ∧
    State.reset.phase = .unconfigured ∧ faulted256.phase = .faulted ∧
    (abcDone.phase ≠ .faulted ∧
      exec (.init (variantCode .sha384)) abcDone = .next (freshContext .sha384 abcDone)) ∧
    exec .final abc256 = .next (afterFinal abc256) :=
  ⟨rfl, rfl, rfl, rfl, ⟨by decide, rfl⟩, exec_final_of_absorbing rfl (by decide)⟩

theorem witness_StatusLayout : ∀ v : Variant, (ctx v .absorbing (lastIndex v) 0).Inv := fun v =>
  ctx_inv (lastIndex_lt v) (by cases v <;> decide) (.inl rfl)

theorem witness_ReadsChangeOnlyRes :
    (exec (.rdbyte 31) abcDone = .next (writeRes (digestByte abcDone 31) abcDone) ∧ abcDone.phase ≠ .faulted) ∧
    exec .size abcDone = .next (writeRes abcDone.tl abcDone) ∧
    exec .rdstat faulted256 = .next (writeRes (status faulted256) faulted256) ∧ faulted256.phase = .faulted :=
  ⟨⟨exec_rdbyte_of_finalized rfl (by decide), by decide⟩, rfl, rfl, rfl⟩

/-- For each command a state that meets the invariant, from which it completes without a fault. -/
theorem witness_CommandFrames :
    (ctx .sha256 .absorbing 63 7).Inv ∧ (ctx .sha256 .absorbing 63 7).phase ≠ .faulted ∧
    (∃ t, exec (.init 4) (ctx .sha256 .absorbing 63 7) = .next t ∧ t.phase ≠ .faulted) ∧
    (∃ t, exec (.absorb 9) (ctx .sha256 .absorbing 63 7) = .next t ∧ t.phase ≠ .faulted) ∧
    (∃ t, exec .final (ctx .sha256 .absorbing 63 7) = .next t ∧ t.phase ≠ .faulted) ∧
    (∃ t, exec .size (ctx .sha256 .absorbing 63 7) = .next t ∧ t.phase ≠ .faulted) ∧
    (∃ t, exec .rdstat (ctx .sha256 .absorbing 63 7) = .next t ∧ t.phase ≠ .faulted) ∧
    (ctx .sha384 .finalized 0 7).Inv ∧ (ctx .sha384 .finalized 0 7).phase ≠ .faulted ∧
    (∃ t, exec (.rdbyte 47) (ctx .sha384 .finalized 0 7) = .next t ∧ t.phase ≠ .faulted) ∧
    needsExtraBlock .sha256 55 = false :=
  ⟨ctx_inv (by decide) (by decide) (.inl rfl), by decide, ⟨_, rfl, by decide⟩,
    ⟨_, exec_absorb_of_absorbing 9 rfl (by decide), by rw [afterByte_phase]; decide⟩,
    ⟨_, exec_final_of_absorbing rfl (by decide), by decide⟩, ⟨_, rfl, by decide⟩, ⟨_, rfl, by decide⟩,
    ctx_inv (by decide) (by decide) (.inr ⟨rfl, rfl⟩), by decide,
    ⟨_, exec_rdbyte_of_finalized rfl (by decide), by decide⟩, by decide⟩

/-- One action for each of the changes of PHASE. -/
theorem witness_PhaseTransitions :
    (takeAction .reset abcDone = .next State.reset ∧ State.reset.phase ≠ abcDone.phase) ∧
    (∃ t, takeAction (.write 0x10000001) abcDone = .next t ∧ t.phase ≠ abcDone.phase) ∧
    (∃ t, takeAction (.write 0x30000000) abc256 = .next t ∧ t.phase ≠ abc256.phase) ∧
    (∃ t, takeAction (.write 0x00000000) abc256 = .next t ∧ t.phase ≠ abc256.phase) :=
  ⟨⟨rfl, by decide⟩, ⟨freshContext .sha256 abcDone, rfl, by decide⟩,
    ⟨afterFinal abc256, exec_final_of_absorbing (s := abc256) rfl (by decide), by decide⟩,
    ⟨raise .illegalCmd abc256, rfl, by decide⟩⟩

theorem witness_ResWriters : (∃ t, commonStep 0x50000000 abcDone = .next t ∧ t.res ≠ abcDone.res) ∧
    (∃ t, commonStep 0x60000000 faulted256 = .next t ∧ t.res ≠ faulted256.res) ∧
    (∃ t, commonStep 0x40000000 abcDone = .next t ∧ t.res ≠ abcDone.res) ∧
    (abcDone.phase ≠ .faulted ∧ commonStep 0x20000000 abcDone = .next (raise .absorbAfterFinal abcDone)) :=
  ⟨⟨writeRes abcDone.tl abcDone, rfl, by decide⟩, ⟨writeRes (status faulted256) faulted256, rfl, by decide⟩,
    ⟨writeRes (digestByte abcDone 0) abcDone, rfl, by decide⟩, by decide, rfl⟩

/-- A state of every phase that meets the invariant, with an action to take. -/
theorem witness_StepKeepsInvariant : ∀ v : Variant,
    (ctx v .absorbing (lastIndex v) 0).Inv ∧ (ctx v .finalized 0 0).Inv ∧
    (∃ t, step (ctx v .absorbing (lastIndex v) 0) = .next t) := fun v =>
  ⟨ctx_inv (lastIndex_lt v) (by cases v <;> decide) (.inl rfl),
    ctx_inv (blockBytes_pos v) (by cases v <;> decide) (.inr ⟨rfl, rfl⟩), _, rfl⟩

theorem witness_InvariantStepCompletes : (ctx .sha512 .absorbing 127 0).Inv :=
  ctx_inv (by decide) (by decide) (.inl rfl)

theorem witness_RunsFromResetAreSafe : runSteps 2 { State.reset with port := [.write 0x10000001, .write 0x50000000] } =
    .next (ctx .sha256 .absorbing 0 0) := rfl

theorem witness_CodecLaws : (0xffffffff : Nat) < 2 ^ (8 * 4) := by decide

theorem witness_BitPrimitives : 0 < 25 ∧ 25 < 32 ∧ 31 < 32 := by decide

theorem witness_ScheduleRecurrence : ∀ v : Variant, (List.replicate (rom v).blockBytes (0xff : Byte)).length =
    (rom v).blockBytes ∧ 16 ≤ 16 ∧ 16 ≤ (rom v).rounds - 1 ∧ (rom v).rounds - 1 < (rom v).rounds := by
  intro v; cases v <;> decide

/-- Working variables round by round, for the first rounds of any schedule. -/
theorem witness_RoundLoop (P : Params) (st : Words8 P.wb) (W : List (BitVec P.wb)) :
    ∃ v : Nat → Words8 P.wb, v 0 = st ∧ ∀ i < P.rounds,
      let temp1 := (v i).h + bigSigma1 P (v i).e + ch (v i).e (v i).f (v i).g + P.K.getD i 0 + W.getD i 0
      let temp2 := bigSigma0 P (v i).a + maj (v i).a (v i).b (v i).c
      v (i + 1) = ⟨temp1 + temp2, (v i).a, (v i).b, (v i).c, (v i).d + temp1, (v i).e, (v i).f, (v i).g⟩ :=
  ⟨fun n => (List.range n).foldl (fun v i => round P v (P.K.getD i 0) (W.getD i 0)) st, rfl, fun i _ => by
    simp only [List.range_succ, List.foldl_append, List.foldl_cons, List.foldl_nil]; rfl⟩

theorem witness_RomConstantsAreRoots : Nat.nth Nat.Prime 0 = 2 ∧ IsRootFraction 3 2 64 (k64.getD 0 0).toNat :=
  ⟨Nat.nth_prime_zero_eq_two, 1, by decide⟩

theorem witness_CompressionsPerCommand : (ctx .sha256 .absorbing 63 7).Inv ∧
    (∀ v, (Instr.absorb 9) ≠ .init v) ∧ (∀ v, Instr.final ≠ .init v) ∧
    (∃ t, exec (.absorb 9) (ctx .sha256 .absorbing 63 7) = .next t) ∧
    (∃ t, exec .final (ctx .sha256 .absorbing 63 7) = .next t) :=
  ⟨ctx_inv (by decide) (by decide) (.inl rfl), by simp, by simp,
    ⟨_, exec_absorb_of_absorbing 9 rfl (by decide)⟩, ⟨_, exec_final_of_absorbing rfl (by decide)⟩⟩

/-- Two ABSORBs of different bytes in states that differ in H, TL and RES. -/
theorem witness_LatencyDataIndependent : opcodeOf (.absorb 0) = opcodeOf (.absorb 255) ∧
    let s := ctx .sha256 .absorbing 63 7
    let t := { s with h := Words8.zero 64, tl := 9, res := 1 }
    s.phase = t.phase ∧ s.var = t.var ∧ s.bu = t.bu := by decide

theorem witness_ControlDataIndependent :
    let s := ctx .sha256 .absorbing 63 7
    let t := { s with h := Words8.zero 64, res := 1, blk := [(0, 1)] }
    s.phase = t.phase ∧ s.var = t.var ∧ s.tl = t.tl ∧ s.bu = t.bu ∧
      exec (.absorb 0) s = .next (afterByte 0 s) ∧ exec (.absorb 255) t = .next (afterByte 255 t) :=
  ⟨rfl, rfl, rfl, rfl, exec_absorb_of_absorbing _ rfl (by decide), exec_absorb_of_absorbing _ rfl (by decide)⟩

theorem witness_FacadeSequences : abcDone.phase ≠ .faulted ∧ abc256.phase = .absorbing ∧
    abc256.bu.toNat < (rom abc256.var).blockBytes := by decide

theorem witness_TruncatedVariantsShareComputation : let t := ctx .sha512 .finalized 0 0
    let s := { t with var := .sha384 }
    s.h = t.h ∧ s.var = .sha384 ∧ t.var = .sha512 := ⟨rfl, rfl, rfl⟩

theorem witness_CommandsComputeHash : State.reset.phase ≠ .faulted ∧ abcDone.phase ≠ .faulted := by decide

theorem witness_HashCompressionCount : abc256.phase ≠ .faulted := by decide

end Sys2Proof.Tests
end

section
/-! SUPPORT. The parameter ROM: the two word-width families its records belong to, and the invariants of a record
(`00_scope.md` R5 and R7, `10_state.md` R120 to R125). -/

namespace Sys2Proof.Machine

@[simp] theorem k32_length : k32.length = 64 := rfl

@[simp] theorem k64_length : k64.length = 80 := rfl

/-- The two families of `10_state.md` R120: what the 32-bit-word variants share and what the 64-bit-word variants share. -/
theorem rom_family (v : Variant) :
    ((rom v).wb = 32 ∧ (rom v).rounds = 64 ∧ (rom v).lenBits = 64 ∧ (rom v).c = c32 ∧ (rom v).k = s32) ∨
    ((rom v).wb = 64 ∧ (rom v).rounds = 80 ∧ (rom v).lenBits = 128 ∧ (rom v).c = c64 ∧ (rom v).k = s64) := by
  cases v
  case sha224 | sha256 => exact .inl ⟨rfl, rfl, rfl, rfl, rfl⟩
  case sha384 | sha512 | sha512_256 => exact .inr ⟨rfl, rfl, rfl, rfl, rfl⟩

theorem rom_K_length (v : Variant) : (rom v).K.length = (rom v).rounds := by
  cases v
  case sha224 | sha256 => exact k32_length
  case sha384 | sha512 | sha512_256 => exact k64_length

theorem rom_wellFormed (v : Variant) : (rom v).wellFormed = true := by cases v <;> decide

theorem Params.wellFormed_iff (P : Params) : P.wellFormed = true ↔
    P.ow ≤ 8 ∧ P.dl = P.ow * P.wordBytes ∧ 16 * P.wb % 8 = 0 ∧ P.lenBits + 8 ≤ 16 * P.wb := by
  simp [Params.wellFormed, and_assoc]

/-- An amount of 0 or of P.wb would make `rotr` and `shr` leave the range of `40_codec.md` R405 and R406. -/
theorem rom_amounts_in_range (v : Variant) : ∀ n ∈ [(rom v).c.n0, (rom v).c.n1, (rom v).c.n2, (rom v).c.n3,
    (rom v).c.n4, (rom v).c.n5, (rom v).k.n0, (rom v).k.n1, (rom v).k.n2, (rom v).k.n3, (rom v).k.n4, (rom v).k.n5],
    0 < n ∧ n < (rom v).wb := by
  obtain ⟨hwb, -, -, hc, hk⟩ | ⟨hwb, -, -, hc, hk⟩ := rom_family v
  · rw [hwb, hc, hk]; decide
  · rw [hwb, hc, hk]; decide

theorem rom_wb_eq (v : Variant) : (rom v).wb = 32 ∨ (rom v).wb = 64 :=
  (rom_family v).imp And.left And.left

theorem rom_of_wb_eq_32 {v : Variant} (h : (rom v).wb = 32) : (rom v).rounds = 64 ∧ (rom v).lenBits = 64 := by
  obtain ⟨-, hr, hl, -⟩ | ⟨hwb, -⟩ := rom_family v
  · exact ⟨hr, hl⟩
  · omega

theorem rom_of_wb_eq_64 {v : Variant} (h : (rom v).wb = 64) : (rom v).rounds = 80 ∧ (rom v).lenBits = 128 := by
  obtain ⟨hwb, -⟩ | ⟨-, hr, hl, -⟩ := rom_family v
  · omega
  · exact ⟨hr, hl⟩

/-- Settles O47: the record check of R7 evaluates to true on the five records, and the field sizes and the amounts
follow from the family of the variant. -/
theorem romRecordsWellFormed : Obligations.RomRecordsWellFormed :=
  ⟨fun v => (rom v).wellFormed_iff.mp (rom_wellFormed v),
   fun v => ⟨rom_K_length v, rom_wb_eq v, rom_of_wb_eq_32, rom_of_wb_eq_64⟩,
   rom_amounts_in_range⟩

end Sys2Proof.Machine
end

section
/-! SUPPORT. The STATUS view and the write rules of PHASE and RES (`10_state.md` R102, R106, R107). -/

namespace Sys2Proof.Machine

/- ### STATUS -/

/-- The low part of a word. -/
theorem extractLsb'_append_right {m n : Nat} (x : BitVec m) (y : BitVec n) : (x ++ y).extractLsb' 0 n = y :=
  (extractLsb'_append_low x y 0 n (by omega)).trans BitVec.extractLsb'_eq_self

/-- A field of the high part, its place counted from the end of the low part. -/
theorem extractLsb'_append_add {m n : Nat} (x : BitVec m) (y : BitVec n) (a k : Nat) :
    (x ++ y).extractLsb' (n + a) k = x.extractLsb' a k :=
  (extractLsb'_append_high x y (n + a) k (by omega)).trans (by rw [Nat.add_sub_cancel_left])

/-- Seven parts side by side, each read back at its place. The place is the sum of the widths below it, written so that
`extractLsb'_append_add` drops one part at a time. -/
theorem fields_append_seven {r c z u v y p : Nat} (R : BitVec r) (C : BitVec c) (Z : BitVec z) (U : BitVec u)
    (V : BitVec v) (Y : BitVec y) (P : BitVec p) :
    let w := R ++ C ++ Z ++ U ++ V ++ Y ++ P
    w.extractLsb' 0 p = P ∧ w.extractLsb' (p + 0) y = Y ∧ w.extractLsb' (p + (y + 0)) v = V ∧
    w.extractLsb' (p + (y + (v + 0))) u = U ∧ w.extractLsb' (p + (y + (v + (u + 0)))) z = Z ∧
    w.extractLsb' (p + (y + (v + (u + (z + 0))))) c = C ∧
    w.extractLsb' (p + (y + (v + (u + (z + (c + 0)))))) r = R := by
  simp only [extractLsb'_append_add, extractLsb'_append_right, BitVec.extractLsb'_eq_self, and_self]

/-- Every bit of STATUS by its field; the reserved ones are 0 (R107). -/
theorem status_fields (s : State) :
    (status s).extractLsb' 0 2 = phaseCode s.phase ∧ (status s).extractLsb' 2 2 = 0 ∧
    (status s).extractLsb' 4 4 = variantCode s.var ∧ (status s).extractLsb' 8 7 = s.bu.extractLsb' 0 7 ∧
    (status s).extractLsb' 15 1 = 0 ∧ (status s).extractLsb' 16 4 = causeCode s.cause ∧
    (status s).extractLsb' 20 12 = 0 :=
  fields_append_seven 0 _ 0 _ _ 0 _

/-- VARIANT of STATUS. -/
theorem status_variant (s : State) : (status s).extractLsb' 4 4 = variantCode s.var := by
  obtain ⟨-, -, h, -⟩ := status_fields s
  exact h

/-- BLOCK_USED of STATUS. -/
theorem status_blockUsed (s : State) : (status s).extractLsb' 8 7 = s.bu.extractLsb' 0 7 := by
  obtain ⟨-, -, -, h, -⟩ := status_fields s
  exact h

/-- Under the invariant BU is below 128, so its seven low bits are all of it (R105). -/
theorem State.Inv.status_blockUsed_toNat {s : State} (h : s.Inv) :
    ((status s).extractLsb' 8 7).toNat = s.bu.toNat := by
  have hbu : s.bu.toNat < 128 := lt_of_lt_of_le h.fillBelowBlock (blockBytes_le s.var)
  rw [status_blockUsed, BitVec.extractLsb'_toNat, Nat.shiftRight_zero, Nat.mod_eq_of_lt hbu]

/-- Settles O30: STATUS field by field; the fault entry keeps VAR and BU, which VARIANT and BLOCK_USED show. -/
theorem statusLayout : Obligations.StatusLayout :=
  ⟨status_fields, fun _ h => h.status_blockUsed_toNat,
    fun c s => ⟨by rw [status_variant, status_variant, raise_var],
      by rw [status_blockUsed, status_blockUsed, raise_bu]⟩,
    rfl⟩

/- ### What a command word can do -/

/-- A completed command word is a completed command of the table, an Illegal word that FAULTED ignores, or the fault of
an Illegal word (`60_exceptions.md` R1112). -/
theorem commonStep_cases {cmd : CmdWord} {s t : State} (h : commonStep cmd s = .next t) :
    (∃ i, decode cmd = .ok i ∧ ExecResult i s t) ∨ (s.phase = .faulted ∧ t = s) ∨
      (s.phase ≠ .faulted ∧ t = raise .illegalCmd s) := by
  unfold commonStep at h
  split at h
  next i hi => exact .inl ⟨i, hi, exec_cases h⟩
  next e he =>
    by_cases hf : s.phase = .faulted
    · rw [execIllegal_of_faulted hf] at h; cases h; exact .inr (.inl ⟨hf, rfl⟩)
    · rw [execIllegal_of_not_faulted hf] at h; cases h; exact .inr (.inr ⟨hf, rfl⟩)

/- ### PHASE -/

/-- A command that changes PHASE is INIT, FINAL in ABSORBING, or one that takes the fault entry (R102). -/
theorem ExecResult.phase_change {i : Instr} {s t : State} (h : ExecResult i s t) (hp : t.phase ≠ s.phase) :
    s.phase ≠ .faulted ∧
      ((∃ var, i = .init var ∧ t.phase = .absorbing) ∨
        (i = .final ∧ s.phase = .absorbing ∧ t.phase = .finalized) ∨ ∃ c, c ≠ .none ∧ t = raise c s) := by
  cases h with
  | same => exact absurd rfl hp
  | fault c hf hc => exact ⟨hf, .inr (.inr ⟨c, hc, rfl⟩)⟩
  | init v hi hf => exact ⟨hf, .inl ⟨_, hi, rfl⟩⟩
  | absorb b => exact absurd (afterByte_phase b s) hp
  | final hi ha => exact ⟨by simp [ha], .inr (.inl ⟨hi, ha, rfl⟩)⟩
  | rdbyte | size | rdstat => exact absurd rfl hp

/-- Settles O34: reset is an action of its own, and a word changes PHASE as its command or the fault entry does. -/
theorem phaseTransitions : Obligations.PhaseTransitions := by
  refine ⟨⟨rfl, rfl, rfl, rfl⟩, fun act s t h hp => ?_⟩
  cases act with
  | reset => cases h; exact .inl ⟨rfl, rfl⟩
  | write cmd =>
    obtain ⟨i, hd, hr⟩ | ⟨-, rfl⟩ | ⟨hf, rfl⟩ := commonStep_cases h
    · obtain ⟨hf, ⟨var, rfl, ht⟩ | ⟨rfl, hs, ht⟩ | hc⟩ := hr.phase_change hp
      · exact .inr ⟨cmd, rfl, hf, .inl ⟨var, hd, ht⟩⟩
      · exact .inr ⟨cmd, rfl, hf, .inr (.inl ⟨hd, hs, ht⟩)⟩
      · exact .inr ⟨cmd, rfl, hf, .inr (.inr hc)⟩
    · exact absurd rfl hp
    · exact .inr ⟨cmd, rfl, hf, .inr (.inr ⟨_, by simp, rfl⟩)⟩

/- ### RES -/

/-- The mask of `45_digest.md` R901 leaves one byte. -/
theorem digestByte_toNat_lt (s : State) (i : Nat) : (digestByte s i).toNat < 2 ^ 8 := by
  unfold digestByte
  rw [BitVec.toNat_and]
  calc _ ≤ (0xFF : BitVec (rom s.var).wb).toNat := Nat.and_le_right
    _ ≤ 0xFF := Nat.mod_le _ _
    _ < 2 ^ 8 := by decide

/-- Zero extension, or a cut, never makes a value larger. -/
theorem toNat_writeRes_lt {w n : Nat} {v : BitVec w} (h : v.toNat < n) (s : State) :
    (writeRes v s).res.toNat < n := by
  rw [writeRes_res, BitVec.toNat_setWidth]
  exact lt_of_le_of_lt (Nat.mod_le _ _) h

/-- A command that changes RES is RDBYTE, SIZE or RDSTAT; it keeps PHASE and its result is zero-extended (R106). -/
theorem ExecResult.res_change {i : Instr} {s t : State} (h : ExecResult i s t) (hr : t.res ≠ s.res) :
    t.phase = s.phase ∧ ((∃ k, i = .rdbyte k ∧ t.res.toNat < 2 ^ 8) ∨ (i = .size ∧ t.res = s.tl) ∨
      (i = .rdstat ∧ t.res.toNat < 2 ^ 32)) := by
  cases h with
  | same | fault | init | final => exact absurd rfl hr
  | absorb b => exact absurd (afterByte_res b s) hr
  | rdbyte k hi => exact ⟨rfl, .inl ⟨k, hi, toNat_writeRes_lt (digestByte_toNat_lt s _) s⟩⟩
  | size hi => exact ⟨rfl, .inr (.inl ⟨hi, BitVec.setWidth_eq s.tl⟩)⟩
  | rdstat hi => exact ⟨rfl, .inr (.inr ⟨hi, toNat_writeRes_lt (status s).isLt s⟩)⟩

/-- A command word that changes RES keeps PHASE and decodes to one of the three readers (R106). -/
theorem commonStep_res_change {cmd : CmdWord} {s t : State} (h : commonStep cmd s = .next t) (hr : t.res ≠ s.res) :
    t.phase = s.phase ∧ ((∃ k, decode cmd = .ok (.rdbyte k) ∧ t.res.toNat < 2 ^ 8) ∨
      (decode cmd = .ok .size ∧ t.res = s.tl) ∨ (decode cmd = .ok .rdstat ∧ t.res.toNat < 2 ^ 32)) := by
  obtain ⟨i, hd, hx⟩ | ⟨-, rfl⟩ | ⟨-, rfl⟩ := commonStep_cases h
  · obtain ⟨hp, ⟨k, rfl, hk⟩ | ⟨rfl, ht⟩ | ⟨rfl, ht⟩⟩ := hx.res_change hr
    · exact ⟨hp, .inl ⟨k, hd, hk⟩⟩
    · exact ⟨hp, .inr (.inl ⟨hd, ht⟩)⟩
    · exact ⟨hp, .inr (.inr ⟨hd, ht⟩)⟩
  · exact absurd rfl hr
  · exact absurd rfl hr

/-- Settles O35: a word that changes RES keeps PHASE, so it did not fault; a word that faults changes PHASE, so it keeps
RES. -/
theorem resWriters : Obligations.ResWriters := by
  refine ⟨fun cmd s t h hr => ?_, fun cmd s t hs h ht => ?_⟩
  · obtain ⟨hp, hw⟩ := commonStep_res_change h hr
    exact ⟨hp ▸ em _, hw⟩
  · by_contra hr
    obtain ⟨hp, -⟩ := commonStep_res_change h hr
    exact hs (hp ▸ ht)

end Sys2Proof.Machine
end

section
/-! SUPPORT. The decoder is the inverse of the encoder, so the rows of the opcode map are the ranges of the encoder
(`30_encoding.md` R302, R306, R307). -/

namespace Sys2Proof

/- ### Words of one opcode with a `zero` field of 0 -/

theorem append_zero_eq_of_fieldsZ {w : CmdWord} {o : BitVec 4} (ho : opField w = o) (hz : zeroFieldZ w = 0) :
    o ++ (0 : BitVec 28) = w := by
  rw [← ho, ← hz, word_eq_fieldsZ]

theorem append_zero_eq_of_fieldsV {w : CmdWord} {o : BitVec 4} (ho : opField w = o) (hz : zeroFieldV w = 0) :
    o ++ (0 : BitVec 24) ++ varField w = w := by
  rw [← ho, ← hz, word_eq_fieldsV]

theorem append_zero_eq_of_fieldsB {w : CmdWord} {o : BitVec 4} (ho : opField w = o) (hz : zeroFieldB w = 0) :
    o ++ (0 : BitVec 20) ++ imm8Field w = w := by
  rw [← ho, ← hz, word_eq_fieldsB]

theorem append_zeroZ_eq_iff (w : CmdWord) (o : BitVec 4) :
    o ++ (0 : BitVec 28) = w ↔ opField w = o ∧ zeroFieldZ w = 0 :=
  ⟨fun h => h ▸ fieldsZ o 0, fun ⟨ho, hz⟩ => append_zero_eq_of_fieldsZ ho hz⟩

theorem exists_append_zeroV_eq_iff (w : CmdWord) (o : BitVec 4) :
    (∃ v : BitVec 4, o ++ (0 : BitVec 24) ++ v = w) ↔ opField w = o ∧ zeroFieldV w = 0 := by
  refine ⟨?_, fun ⟨ho, hz⟩ => ⟨_, append_zero_eq_of_fieldsV ho hz⟩⟩
  rintro ⟨v, rfl⟩
  obtain ⟨ho, hz, -⟩ := fieldsV o 0 v
  exact ⟨ho, hz⟩

theorem exists_append_zeroB_eq_iff (w : CmdWord) (o : BitVec 4) :
    (∃ b : BitVec 8, o ++ (0 : BitVec 20) ++ b = w) ↔ opField w = o ∧ zeroFieldB w = 0 := by
  refine ⟨?_, fun ⟨ho, hz⟩ => ⟨_, append_zero_eq_of_fieldsB ho hz⟩⟩
  rintro ⟨b, rfl⟩
  obtain ⟨ho, hz, -⟩ := fieldsB o 0 b
  exact ⟨ho, hz⟩

/- ### Decoder and encoder -/

/-- The decoder reads back the fields that the encoder laid side by side (R302, R307). -/
theorem decode_encode (i : Instr) : decode (encode i) = .ok i := by
  cases i with
  | init v => simp only [encode, decode, fieldsV, BitVec.reduceEq, reduceIte]
  | absorb b | rdbyte b => simp only [encode, decode, fieldsB, BitVec.reduceEq, reduceIte]
  | final | size | rdstat => simp only [encode, decode, fieldsZ, BitVec.reduceEq, reduceIte]

/-- The decoder accepts a word only when its opcode, its `zero` field and its operand make up the whole word. -/
theorem encode_of_decode {w : CmdWord} {i : Instr} (h : decode w = .ok i) : encode i = w := by
  revert h
  fun_cases decode w with
  | case1 ho hz => rintro ⟨⟩; exact append_zero_eq_of_fieldsV ho hz
  | case3 _ ho hz | case7 _ _ _ ho hz => rintro ⟨⟩; exact append_zero_eq_of_fieldsB ho hz
  | case5 _ _ ho hz | case9 _ _ _ _ ho hz | case11 _ _ _ _ _ ho hz =>
    rintro ⟨⟩; exact append_zero_eq_of_fieldsZ ho hz
  | case2 | case4 | case6 | case8 | case10 | case12 | case13 => rintro ⟨⟩

theorem decode_eq_ok_iff {w : CmdWord} {i : Instr} : decode w = .ok i ↔ encode i = w :=
  ⟨encode_of_decode, fun h => h ▸ decode_encode i⟩

/- ### The rows of the opcode map -/

theorem Instr.exists_iff {p : Instr → Prop} : (∃ i, p i) ↔
    (∃ v, p (.init v)) ∨ (∃ b, p (.absorb b)) ∨ p .final ∨ (∃ k, p (.rdbyte k)) ∨ p .size ∨ p .rdstat := by
  constructor
  · rintro ⟨i, hi⟩
    cases i with
    | init v => exact .inl ⟨v, hi⟩
    | absorb b => exact .inr (.inl ⟨b, hi⟩)
    | final => exact .inr (.inr (.inl hi))
    | rdbyte k => exact .inr (.inr (.inr (.inl ⟨k, hi⟩)))
    | size => exact .inr (.inr (.inr (.inr (.inl hi))))
    | rdstat => exact .inr (.inr (.inr (.inr (.inr hi))))
  · rintro (⟨v, h⟩ | ⟨b, h⟩ | h | ⟨k, h⟩ | h | h) <;> exact ⟨_, h⟩

/-- A mask that keeps the high part of a word leaves that part beside zeros. -/
theorem append_and_keepHigh {n m : Nat} (x : BitVec n) (y : BitVec m) :
    (x ++ y) &&& (BitVec.allOnes n ++ 0#m) = x ++ 0#m := by
  rw [BitVec.and_append, BitVec.and_allOnes, BitVec.and_zero]

theorem and_keepHigh_eq_iff {n m : Nat} (w : BitVec (n + m)) (x : BitVec n) :
    w &&& (BitVec.allOnes n ++ 0#m) = x ++ 0#m ↔ ∃ y : BitVec m, x ++ y = w := by
  constructor
  · rw [← append_extractLsb' w, append_and_keepHigh, BitVec.append_left_inj]
    rintro rfl
    exact ⟨_, rfl⟩
  · rintro ⟨y, rfl⟩
    exact append_and_keepHigh x y

/-- Two rows that select one word agree on every bit that both masks keep. -/
theorem OpcodeRow.patterns_agree_of_selects {r q : OpcodeRow} {w : CmdWord} (hr : r.selects w = true)
    (hq : q.selects w = true) : r.pattern &&& q.mask = q.pattern &&& r.mask := by
  rw [← eq_of_beq hr, ← eq_of_beq hq, BitVec.and_assoc, BitVec.and_assoc, BitVec.and_comm r.mask]

theorem opcodeMap_rows_disjoint (w : CmdWord) :
    opcodeMap.Pairwise fun r q => ¬(r.selects w = true ∧ q.selects w = true) := by
  have hne : opcodeMap.Pairwise fun r q => r.pattern &&& q.mask ≠ q.pattern &&& r.mask := by decide
  exact hne.imp fun h ⟨hr, hq⟩ => h (OpcodeRow.patterns_agree_of_selects hr hq)

/-- Formats V and B: the row's mask keeps all but the operand, and the words it selects are the encodings over all
operands. -/
theorem exists_decode_init_iff (w : CmdWord) : (∃ v, decode w = .ok (.init v)) ↔ w &&& 0xFFFFFFF0 = 0x10000000 := by
  simp only [decode_eq_ok_iff]
  exact (and_keepHigh_eq_iff (n := 28) (m := 4) w (0x1 ++ 0)).symm

theorem exists_decode_absorb_iff (w : CmdWord) :
    (∃ b, decode w = .ok (.absorb b)) ↔ w &&& 0xFFFFFF00 = 0x20000000 := by
  simp only [decode_eq_ok_iff]
  exact (and_keepHigh_eq_iff (n := 24) (m := 8) w (0x2 ++ 0)).symm

theorem exists_decode_rdbyte_iff (w : CmdWord) :
    (∃ k, decode w = .ok (.rdbyte k)) ↔ w &&& 0xFFFFFF00 = 0x40000000 := by
  simp only [decode_eq_ok_iff]
  exact (and_keepHigh_eq_iff (n := 24) (m := 8) w (0x4 ++ 0)).symm

/-- Format Z: the row's mask keeps the whole word, so the row selects the one encoding of its command. -/
theorem decode_eq_ok_iff_and_allOnes (w : CmdWord) (i : Instr) :
    decode w = .ok i ↔ w &&& 0xFFFFFFFF = encode i := by
  rw [decode_eq_ok_iff, show w &&& 0xFFFFFFFF = w from BitVec.and_allOnes, eq_comm]

/-- A word decodes exactly when its opcode is assigned and its format's `zero` field is 0 (R306). -/
theorem decodes_iff_fields (w : CmdWord) : (∃ i, decode w = .ok i) ↔
    (opField w = 0x1 ∧ zeroFieldV w = 0) ∨ (opField w = 0x2 ∧ zeroFieldB w = 0) ∨
    (opField w = 0x3 ∧ zeroFieldZ w = 0) ∨ (opField w = 0x4 ∧ zeroFieldB w = 0) ∨
    (opField w = 0x5 ∧ zeroFieldZ w = 0) ∨ (opField w = 0x6 ∧ zeroFieldZ w = 0) := by
  simp only [Instr.exists_iff, decode_eq_ok_iff, encode, exists_append_zeroV_eq_iff, exists_append_zeroB_eq_iff,
    append_zeroZ_eq_iff]

/-- The check of the opcode map accepts exactly the words that decode. -/
theorem wordWellFormed_iff_decodes (w : CmdWord) : wordWellFormed w = true ↔ ∃ i, decode w = .ok i := by
  rw [Instr.exists_iff, exists_decode_init_iff, exists_decode_absorb_iff, exists_decode_rdbyte_iff,
    decode_eq_ok_iff_and_allOnes, decode_eq_ok_iff_and_allOnes, decode_eq_ok_iff_and_allOnes]
  simp only [wordWellFormed, opcodeMap, OpcodeRow.selects, List.any_cons, List.any_nil, Bool.or_false, Bool.or_eq_true,
    beq_iff_eq]
  rfl

/-- Settles O4: the decoder inverts the encoder, so each row of the map is the range of the encoder at its command. -/
theorem decodeFollowsOpcodeMap : Obligations.DecodeFollowsOpcodeMap :=
  ⟨decodes_iff_fields, exists_decode_init_iff, exists_decode_absorb_iff,
    fun w => decode_eq_ok_iff_and_allOnes w .final, exists_decode_rdbyte_iff,
    fun w => decode_eq_ok_iff_and_allOnes w .size, fun w => decode_eq_ok_iff_and_allOnes w .rdstat,
    wordWellFormed_iff_decodes, opcodeMap_rows_disjoint⟩

end Sys2Proof
end

section
/-! SUPPORT. The message schedule: what each word of an expanded block is (`41_schedule.md` R500, R501). -/

namespace Sys2Proof.Machine

/- ### The words of an expanded block -/

theorem rom_sixteen_le_rounds (v : Variant) : 16 ≤ (rom v).rounds := by cases v <;> decide

theorem rom_blockBytes_eq (v : Variant) : (rom v).blockBytes = 16 * (rom v).wordBytes := by cases v <;> rfl

theorem expandSchedule_length {P : Params} (hP : 16 ≤ P.rounds) (blk : List Byte) :
    (expandSchedule P blk).length = P.rounds := by
  obtain ⟨hlen, -, -⟩ := grownSchedule P (inputWords P blk) (inputWords_length P blk) (P.rounds - 16)
  exact hlen.trans (by omega)

theorem getD_expandSchedule_of_lt (P : Params) (blk : List Byte) {j : Nat} (hj : j < 16) :
    (expandSchedule P blk).getD j 0 = blockWord P blk j := by
  obtain ⟨-, hinput, -⟩ := grownSchedule P (inputWords P blk) (inputWords_length P blk) (P.rounds - 16)
  exact (hinput j hj).trans (getD_inputWords P blk hj)

theorem getD_expandSchedule_of_ge (P : Params) (blk : List Byte) {i : Nat} (hi : 16 ≤ i) (hR : i < P.rounds) :
    (expandSchedule P blk).getD i 0 = nextWord P (expandSchedule P blk) i := by
  obtain ⟨-, -, hnext⟩ := grownSchedule P (inputWords P blk) (inputWords_length P blk) (P.rounds - 16)
  exact hnext i hi (by omega)

/-- A slice that ends within the list, read by index. -/
theorem take_drop_eq_map_getD {α : Type} (l : List α) (d : α) {a n : Nat} (h : a + n ≤ l.length) :
    (l.drop a).take n = (List.range n).map fun k => l.getD (a + k) d := by
  refine List.ext_getElem (by simp; omega) fun k _ hk => ?_
  have hkn : k < n := by simpa using hk
  simp [List.getElem?_eq_getElem (show a + k < l.length by omega)]

/-- The sixteen words of R500 cover a block of 16 × P.w bytes and no more, so every word reads bytes of the block. -/
theorem blockWord_eq_map_getD {P : Params} {blk : List Byte} (hblk : blk.length = 16 * P.wordBytes) {j : Nat}
    (hj : j < 16) : blockWord P blk j = BitVec.ofNat P.wb
      (bytesToWordBE ((List.range P.wordBytes).map fun k => blk.getD (j * P.wordBytes + k) 0)) := by
  have hend : j * P.wordBytes + P.wordBytes ≤ blk.length := by
    calc j * P.wordBytes + P.wordBytes = (j + 1) * P.wordBytes := (Nat.succ_mul _ _).symm
      _ ≤ 16 * P.wordBytes := Nat.mul_le_mul_right _ hj
      _ = blk.length := hblk.symm
  rw [blockWord, take_drop_eq_map_getD blk 0 hend]

/- ### The all-zero block -/

@[simp] theorem bytesToWordBE_replicate_zero (n : Nat) : bytesToWordBE (List.replicate n 0#8) = 0 := by
  induction n with
  | zero => rfl
  | succ n ih => simp [List.replicate_succ, bytesToWordBE, ih]

@[simp] theorem blockWord_replicate_zero (P : Params) (n j : Nat) : blockWord P (List.replicate n 0#8) j = 0#P.wb := by
  simp [blockWord]

@[simp] theorem smallSigma_zero {w : Nat} (n0 n1 n2 : Nat) : smallSigma n0 n1 n2 0#w = 0#w := by
  simp [smallSigma, rotr, shr]

/-- Each term of R501 is 0 when the four words it reads are 0. -/
theorem nextWord_eq_zero {P : Params} {W : List (BitVec P.wb)} {i : Nat} (hi : 16 ≤ i)
    (hW : ∀ j < i, W.getD j 0 = 0) : nextWord P W i = 0 := by
  rw [nextWord, hW (i - 16) (by omega), hW (i - 15) (by omega), hW (i - 7) (by omega), hW (i - 2) (by omega)]
  simp [smallSigma0, smallSigma1]

/-- The corner case of R501, at every index: past the schedule's end `getD` answers 0 as well. -/
theorem getD_expandSchedule_replicate_zero {P : Params} (hP : 16 ≤ P.rounds) (n i : Nat) :
    (expandSchedule P (List.replicate n 0)).getD i 0 = 0 := by
  induction i using Nat.strong_induction_on with
  | _ i ih =>
    obtain hi | hi := Nat.lt_or_ge i 16
    · rw [getD_expandSchedule_of_lt P _ hi]; exact blockWord_replicate_zero P n i
    · obtain hR | hR := Nat.lt_or_ge i P.rounds
      · rw [getD_expandSchedule_of_ge P _ hi hR, nextWord_eq_zero hi ih]
      · exact List.getD_eq_default _ _ (by rwa [expandSchedule_length hP])

/-- Settles O42: the words of the schedule as `grownSchedule` gives them, a block being exactly sixteen words long. -/
theorem scheduleRecurrence : Obligations.ScheduleRecurrence := by
  refine ⟨fun v blk hblk => ⟨expandSchedule_length (rom_sixteen_le_rounds v) blk, fun j hj => ?_,
    fun i hi hR => getD_expandSchedule_of_ge (rom v) blk hi hR⟩,
    fun v i => getD_expandSchedule_replicate_zero (rom_sixteen_le_rounds v) _ i⟩
  rw [getD_expandSchedule_of_lt (rom v) blk hj, blockWord_eq_map_getD (hblk.trans (rom_blockBytes_eq v)) hj]

end Sys2Proof.Machine
end

section
/-! SUPPORT. The compressor: the round loop followed along a trajectory, and the feed-forward word by word
(`42_compress.md` R600, R601, R610). -/

namespace Sys2Proof.Machine

/- ### The round loop -/

/-- One round field by field: every right-hand side reads the values before the assignment (R600). -/
theorem round_eq (P : Params) (v : Words8 P.wb) (K W : BitVec P.wb) :
    round P v K W =
      let temp1 := v.h + bigSigma1 P v.e + ch v.e v.f v.g + K + W
      let temp2 := bigSigma0 P v.a + maj v.a v.b v.c
      ⟨temp1 + temp2, v.a, v.b, v.c, v.d + temp1, v.e, v.f, v.g⟩ := rfl

/-- A fold over the first n indices ends where any sequence that follows its step stands after n steps. -/
theorem foldl_range_eq_of_forall_step {α : Type} {f : α → Nat → α} {v : Nat → α} {n : Nat}
    (hstep : ∀ i < n, v (i + 1) = f (v i) i) : (List.range n).foldl f (v 0) = v n := by
  induction n with
  | zero => rfl
  | succ n ih =>
    have hfirst : (List.range n).foldl f (v 0) = v n := ih fun i hi => hstep i (Nat.lt_succ_of_lt hi)
    rw [List.range_succ, List.foldl_concat, hfirst, hstep n (Nat.lt_succ_self n)]

/-- Settles O43: the assignment of the rule is one `round`, so the working variables follow the fold of `rounds`. -/
theorem roundLoop : Obligations.RoundLoop := by
  rintro P _ W v rfl hassign
  exact foldl_range_eq_of_forall_step fun i hi => (hassign i hi).trans (round_eq P (v i) _ _).symm

/- ### The feed-forward -/

/-- Word j of the next chain value: the low P.wb bits of the old word plus the working variable, zero-extended. -/
theorem get_nextChain (var : Variant) (h : Words8 64) (blk : List Byte) (j : Fin 8) :
    (nextChain var h blk).get j =
      ((h.get j).setWidth (rom var).wb +
        (rounds (rom var) (h.map (·.setWidth (rom var).wb)) (expandSchedule (rom var) blk)).get j).setWidth 64 := by
  rw [nextChain, compress, get_map, get_add, get_map]

/-- Settles O45: H becomes the next chain value, which is the feed-forward sum word by word, and no other field is
written. -/
theorem compressBlockFeedsForward : Obligations.CompressBlockFeedsForward :=
  fun s blk => ⟨fun j => by rw [compressBlock_h, get_nextChain], rfl⟩

end Sys2Proof.Machine
end

section
/-! SUPPORT. INIT and ABSORB as command words and as commands: a word that no command encodes is the fault of an Illegal
word, and ABSORB's outcome in each phase (`60_exceptions.md` R1112, `43_buffer.md` R701 and R705). -/

namespace Sys2Proof.Machine

/- ### Command words -/

/-- The common step runs the command that the word encodes (R1112). -/
theorem commonStep_encode (i : Instr) (s : State) : commonStep (encode i) s = exec i s := by
  rw [commonStep, decode_encode]

/-- Outside FAULTED a word that no command encodes raises ILLEGAL_CMD (R1112). -/
theorem commonStep_of_not_decodes {w : CmdWord} {s : State} (hw : ¬∃ i, decode w = .ok i) (hs : s.phase ≠ .faulted) :
    commonStep w s = .next (raise .illegalCmd s) := by
  unfold commonStep
  split
  next i hi => exact absurd ⟨i, hi⟩ hw
  next => exact execIllegal_of_not_faulted hs

/-- An operand ored into a word whose low part is zero stands beside the high part. -/
theorem append_zero_or_setWidth {n m : Nat} (x : BitVec n) (y : BitVec m) :
    (x ++ 0#m) ||| y.setWidth (n + m) = x ++ y := by
  rw [BitVec.setWidth_eq_append (by omega)]
  simp

theorem or_setWidth_eq_encode_init (var : BitVec 4) : 0x10000000 ||| var.setWidth 32 = encode (.init var) :=
  append_zero_or_setWidth (0x1#4 ++ 0#24) var

theorem or_setWidth_eq_encode_absorb (b : Byte) : 0x20000000 ||| b.setWidth 32 = encode (.absorb b) :=
  append_zero_or_setWidth (0x2#4 ++ 0#20) b

theorem not_decodes_init_of_zeroFieldV {w : CmdWord} (ho : opField w = 0x1) (hz : zeroFieldV w ≠ 0) :
    ¬∃ i, decode w = .ok i := by
  rw [decodes_iff_fields, ho]
  simpa using hz

theorem not_decodes_absorb_of_zeroFieldB {w : CmdWord} (ho : opField w = 0x2) (hz : zeroFieldB w ≠ 0) :
    ¬∃ i, decode w = .ok i := by
  rw [decodes_iff_fields, ho]
  simpa using hz

/- ### INIT -/

/-- Codes 0 to 4 are the codes of the variants (`00_scope.md` R8). -/
theorem exists_variantCode_eq {var : BitVec 4} (h : var.toNat < 5) : ∃ v, variantCode v = var := by
  cases hv : variantOfCode var with
  | none => exact absurd (variantOfCode_eq_none.mp hv) (by omega)
  | some v => exact ⟨v, (variantOfCode_eq_some.mp hv).symm⟩

@[simp] theorem freshContext_freshContext (v : Variant) (s : State) :
    freshContext v (freshContext v s) = freshContext v s := rfl

/-- Settles O15: outside FAULTED INIT leaves `freshContext`, which reads nothing of the old context, or faults. -/
theorem initBuildsContext : Obligations.InitBuildsContext := by
  refine ⟨fun var s => ?word, fun w s ho hz hs => ?illegal, fun var => exists_variantCode_eq, fun v s hs => ?context,
    fun var s => exec_init_of_reserved, fun var s hs => exec_of_faulted hs nofun⟩
  case word => rw [or_setWidth_eq_encode_init, commonStep_encode]
  case illegal => exact commonStep_of_not_decodes (not_decodes_init_of_zeroFieldV ho hz) hs
  case context =>
    have hagain : exec (.init (variantCode v)) (freshContext v s) = .next (freshContext v s) := by
      rw [exec_init_of_variant v (by simp), freshContext_freshContext]
    exact ⟨freshContext v s, exec_init_of_variant v hs, rfl, fun j => by rw [freshContext_h, get_map], rfl, rfl,
      readByte_cleared, cleared_wf, rfl, rfl, rfl, rfl, hagain⟩

/- ### ABSORB -/

theorem exec_absorb_of_finalized {s : State} (b : Byte) (h : s.phase = .finalized) :
    exec (.absorb b) s = .next (raise .absorbAfterFinal s) := by
  simp [exec, execAbsorb, h]

/-- Settles O16: in ABSORBING the next state is `afterByte`, whose BU and H turn on whether the byte fills the block. -/
theorem absorbTakesOneByte : Obligations.AbsorbTakesOneByte := by
  refine ⟨fun b s => ?word, fun w s ho hz hs => ?illegal, fun b s hs hbu hwf => ?absorbing,
    fun b s hs => exec_of_unconfigured hs nofun nofun, fun b s => exec_absorb_of_finalized b,
    fun b s hs => exec_of_faulted hs nofun⟩
  case word => rw [or_setWidth_eq_encode_absorb, commonStep_encode]
  case illegal => exact commonStep_of_not_decodes (not_decodes_absorb_of_zeroFieldB ho hz) hs
  case absorbing =>
    have hindex : s.bu.toNat < Config.bufferBytes := lt_of_lt_of_le hbu (blockBytes_le s.var)
    refine ⟨afterByte b s, exec_absorb_of_absorbing b hs hindex, fun i => ?_, ?_, ?_, fun hlt => ?_,
      afterByte_of_full b, (afterByte_phase b s).trans hs, afterByte_var b s, afterByte_cause b s, afterByte_res b s,
      afterByte_port b s⟩
    · rw [afterByte_blk, readByte_writeByte hwf]
    · rw [afterByte_blk]
      exact writeByte_wf hwf hindex
    · rw [afterByte_tl, countByte_toNat]
    · obtain ⟨hnext, hsucc, hh⟩ := afterByte_bu_of_lt b hlt
      exact ⟨hnext ▸ hsucc, hh⟩

end Sys2Proof.Machine
end

section
/-! SUPPORT. FINAL as a command word and as a command, its compressions, and the value of the length field
(`44_finalize.md` R801, R804, R805). -/

namespace Sys2Proof.Machine

/- ### The length field -/

theorem wordToBytesBE_succ (x n : Nat) :
    wordToBytesBE x (n + 1) = BitVec.ofNat 8 (x >>> (8 * n)) :: wordToBytesBE x n := by
  simp [wordToBytesBE, List.range_succ_eq_map, Nat.sub_sub, Nat.add_comm]

/-- n bytes carry a number modulo 2^(8n): the first of them holds the digit of weight 2^(8 (n - 1)). -/
theorem bytesToWordBE_wordToBytesBE (x n : Nat) : bytesToWordBE (wordToBytesBE x n) = x % 2 ^ (8 * n) := by
  induction n with
  | zero => simp [wordToBytesBE, bytesToWordBE, Nat.mod_one]
  | succ n ih =>
    calc bytesToWordBE (wordToBytesBE x (n + 1))
        = x / 2 ^ (8 * n) % 2 ^ 8 * 2 ^ (8 * n) + x % 2 ^ (8 * n) := by
          simp [wordToBytesBE_succ, bytesToWordBE, ih, Nat.shiftRight_eq_div_pow]
      _ = x % (2 ^ (8 * n) * 2 ^ 8) := by rw [Nat.mod_mul, Nat.add_comm, Nat.mul_comm (_ % 2 ^ 8)]
      _ = x % 2 ^ (8 * (n + 1)) := by rw [← pow_add, Nat.mul_succ]

/-- The length field is a whole number of bytes (`00_scope.md` R6). -/
theorem rom_lenBits_eq (v : Variant) : (rom v).lenBits = 8 * (rom v).lenBytes := by cases v <;> rfl

theorem bytesToWordBE_lengthField (v : Variant) (tl : BitVec 128) :
    bytesToWordBE (lengthField v tl) = tl.toNat * 8 % 2 ^ (rom v).lenBits := by
  rw [lengthField, bytesToWordBE_wordToBytesBE, ← rom_lenBits_eq, Nat.mod_mod]

/- ### FINAL in each phase -/

theorem exec_final_of_finalized {s : State} (h : s.phase = .finalized) :
    exec .final s = .next (raise .finalTwice s) := by
  simp [exec, execFinal, h]

/-- FINAL in ABSORBING, for every BU: its padding exists exactly when BLK[BU] does. -/
theorem exec_final_eq_of_absorbing {s : State} (h : s.phase = .absorbing) :
    exec .final s = if s.bu.toNat < Config.bufferBytes then .next (afterFinal s) else .fault .noSuchBlockByte := by
  split_ifs with hb
  · exact exec_final_of_absorbing h hb
  · simp [exec, execFinal, h, finalize_eq, hb, finish]

/-- The context of a FINAL that can run: BU below P.B. -/
theorem exec_final_of_bu_lt {s : State} (h : s.phase = .absorbing) (hbu : s.bu.toNat < (rom s.var).blockBytes) :
    exec .final s = .next (afterFinal s) :=
  exec_final_of_absorbing h (lt_of_lt_of_le hbu (blockBytes_le s.var))

/-- FINAL reads TL only through the length field. -/
theorem afterFinal_with_tl {s : State} {tl' : BitVec 128} (h : lengthField s.var s.tl = lengthField s.var tl') :
    afterFinal { s with tl := tl' } = { afterFinal s with tl := tl' } := by
  have hblk : paddedBuffer { s with tl := tl' } = paddedBuffer s := by simp only [paddedBuffer, h]
  simp only [afterFinal, hblk]
  rfl

/-- Settles O24: the codec gives the field's value; FINAL with another TL of the same field answers the same state but
for TL. -/
theorem lengthModulus : Obligations.LengthModulus := by
  refine ⟨fun v tl => ⟨lengthField_length v tl, bytesToWordBE_lengthField v tl⟩, fun s t tl' hmod hs ht => ?_,
    by decide +kernel, by decide +kernel⟩
  have hfield : lengthField s.var s.tl = lengthField s.var tl' := by rw [lengthField, hmod, lengthField]
  rw [exec_final_eq_of_absorbing hs] at ht
  rw [exec_final_eq_of_absorbing (s := { s with tl := tl' }) hs]
  split_ifs at ht ⊢ with hb
  cases ht
  rw [afterFinal_with_tl hfield]

/-- Settles O25: FINAL leaves FINALIZED, where FINAL is the fault entry. -/
theorem finalRunsOnce : Obligations.FinalRunsOnce := fun s hs hbu =>
  ⟨afterFinal s, exec_final_of_bu_lt hs hbu, rfl, exec_final_of_finalized rfl⟩

/- ### The compressions of FINAL -/

theorem needsExtraBlock_iff (v : Variant) (u : Nat) :
    needsExtraBlock v u = true ↔ (rom v).blockBytes - u - 1 < (rom v).lenBytes :=
  decide_eq_true_iff

/-- H after FINAL when the length field fits behind the marker (R801 step 4). -/
theorem afterFinal_h_of_fits {s : State} (hx : ¬(rom s.var).blockBytes - s.bu.toNat - 1 < (rom s.var).lenBytes) :
    (afterFinal s).h = nextChain s.var s.h (wholeBlock (afterFinal s)) := by
  rw [← needsExtraBlock_iff] at hx
  simp only [afterFinal, if_neg hx]
  rfl

/-- H after FINAL when it does not: the marked block goes first (R801 step 2). -/
theorem afterFinal_h_of_extra {s : State} (hx : (rom s.var).blockBytes - s.bu.toNat - 1 < (rom s.var).lenBytes) :
    (afterFinal s).h =
      nextChain s.var (nextChain s.var s.h (wholeBlock (markedState s))) (wholeBlock (afterFinal s)) := by
  rw [← needsExtraBlock_iff] at hx
  simp only [afterFinal, if_pos hx]
  rfl

/-- The marked block: the message's tail, the marker and the zero fill (R801 step 1). -/
theorem wholeBlock_markedState {s : State} (hw : Memory.wf s.blk) (hbu : s.bu.toNat < (rom s.var).blockBytes) :
    wholeBlock (markedState s) = (List.range (rom s.var).blockBytes).map fun i =>
      if i < s.bu.toNat then readByte i s.blk else if i = s.bu.toNat then 0x80 else 0 := by
  refine List.map_congr_left fun i hi => ?_
  have hi : i < (rom s.var).blockBytes := List.mem_range.mp hi
  rw [readByte_markedState hw hbu, if_neg (Nat.not_le.mpr hi)]

/- ### FINAL as a command word -/

theorem encode_final : encode .final = 0x30000000 := by decide

theorem not_decodes_final_of_zeroFieldZ {w : CmdWord} (ho : opField w = 0x3) (hz : zeroFieldZ w ≠ 0) :
    ¬∃ i, decode w = .ok i := by
  rw [decodes_iff_fields, ho]
  simpa using hz

/-- Settles O21: in ABSORBING the next state is `afterFinal`, whose buffer is the padded one and whose H turns on
whether the length field fits behind the marker. -/
theorem finalPadsAndCompresses : Obligations.FinalPadsAndCompresses := by
  refine ⟨fun s => ?word, fun w s ho hz hs => ?illegal, fun s hs hbu hwf => ?absorbing,
    fun s hs => exec_of_unconfigured hs nofun nofun, fun s => exec_final_of_finalized,
    fun s hs => exec_of_faulted hs nofun⟩
  case word => rw [← encode_final, commonStep_encode]
  case illegal => exact commonStep_of_not_decodes (not_decodes_final_of_zeroFieldZ ho hz) hs
  case absorbing =>
    refine ⟨afterFinal s, exec_final_of_bu_lt hs hbu, readByte_paddedBuffer hwf hbu, paddedBuffer_wf hwf hbu,
      afterFinal_h_of_fits, fun hx => ?_, rfl, rfl, rfl, rfl, rfl, rfl, rfl⟩
    rw [afterFinal_h_of_extra hx, wholeBlock_markedState hwf hbu]

end Sys2Proof.Machine
end

section
/-! SUPPORT. The digest serializer as a byte string, RDBYTE as a command word and as a command, and what the truncated
variants share with the full ones (`45_digest.md` R900, R901, R903). -/

namespace Sys2Proof.Machine

/- ### Strings of equally long pieces -/

section pieces
variable {α β : Type} {f : α → List β} {n : Nat}

theorem length_flatMap_of_forall_length (hf : ∀ x, (f x).length = n) (l : List α) :
    (l.flatMap f).length = l.length * n := by
  simp [List.length_flatMap, hf]

theorem flatMap_eq_take_append_drop (f : α → List β) (l : List α) (m : Nat) :
    l.flatMap f = (l.take m).flatMap f ++ (l.drop m).flatMap f := by
  rw [← List.flatMap_append, List.take_append_drop]

/-- The first m pieces take up the first m × n places. -/
theorem take_flatMap_of_forall_length (hf : ∀ x, (f x).length = n) {l : List α} {m : Nat} (hm : m ≤ l.length) :
    (l.flatMap f).take (m * n) = (l.take m).flatMap f := by
  have hlen : ((l.take m).flatMap f).length = m * n := by
    rw [length_flatMap_of_forall_length hf, List.length_take_of_le hm]
  rw [flatMap_eq_take_append_drop f l m, List.take_left' hlen]

/-- Place k of piece j, behind the j pieces before it. -/
theorem getD_flatMap_of_forall_length (hf : ∀ x, (f x).length = n) {l : List α} {j k : Nat} (hj : j < l.length)
    (hk : k < n) (d : β) : (l.flatMap f).getD (j * n + k) d = (f l[j]).getD k d := by
  have hlen : ((l.take j).flatMap f).length = j * n := by
    rw [length_flatMap_of_forall_length hf, List.length_take_of_le hj.le]
  calc (l.flatMap f).getD (j * n + k) d
      = ((l.drop j).flatMap f).getD k d := by
        rw [flatMap_eq_take_append_drop f l j, List.getD_append_right _ _ _ _ (by omega), hlen, Nat.add_sub_cancel_left]
    _ = (f l[j]).getD k d := by
        rw [List.drop_eq_getElem_cons hj, List.flatMap_cons, List.getD_append _ _ _ _ (by rwa [hf])]

end pieces

/- ### The layout of the digest -/

theorem rom_ow_le (v : Variant) : (rom v).ow ≤ 8 := by
  obtain ⟨how, -⟩ := (rom v).wellFormed_iff.mp (rom_wellFormed v)
  exact how

theorem rom_dl_eq (v : Variant) : (rom v).dl = (rom v).ow * (rom v).wordBytes := by
  obtain ⟨-, hdl, -⟩ := (rom v).wellFormed_iff.mp (rom_wellFormed v)
  exact hdl

@[simp] theorem toList_length {w : Nat} (x : Words8 w) : x.toList.length = 8 := rfl

theorem length_take_toList (v : Variant) (h : Words8 64) : (h.toList.take (rom v).ow).length = (rom v).ow :=
  List.length_take_of_le (rom_ow_le v)

theorem digestOf_length (v : Variant) (h : Words8 64) :
    (digestOf v h).length = (rom v).ow * (rom v).wordBytes := by
  rw [digestOf, length_flatMap_of_forall_length fun _ => wordToBytesBE_length _ _, length_take_toList]

/-- Byte k of output word j (R900). -/
theorem getD_digestOf (v : Variant) (h : Words8 64) {j : Fin 8} {k : Nat} (hj : j.val < (rom v).ow)
    (hk : k < (rom v).wordBytes) : (digestOf v h).getD (j.val * (rom v).wordBytes + k) 0 =
      BitVec.ofNat 8 (((h.get j).setWidth (rom v).wb).toNat >>> (8 * ((rom v).wordBytes - 1 - k))) := by
  rw [digestOf, getD_flatMap_of_forall_length (fun _ => wordToBytesBE_length _ _)
    (by rwa [length_take_toList]) hk, List.getElem_take, getElem_toList, getD_wordToBytesBE hk]

theorem getD_digestOf_toNat (v : Variant) (h : Words8 64) {j : Fin 8} {k : Nat} (hj : j.val < (rom v).ow)
    (hk : k < (rom v).wordBytes) : ((digestOf v h).getD (j.val * (rom v).wordBytes + k) 0).toNat =
      (h.get j).toNat % 2 ^ (rom v).wb / 2 ^ (8 * ((rom v).wordBytes - 1 - k)) % 256 := by
  rw [getD_digestOf v h hj hk, BitVec.toNat_ofNat, BitVec.toNat_setWidth, Nat.shiftRight_eq_div_pow]

/-- The first m words of a group are its words of index below m. -/
theorem take_toList_congr {w m : Nat} {x y : Words8 w} (hxy : ∀ j : Fin 8, j.val < m → x.get j = y.get j) :
    x.toList.take m = y.toList.take m := by
  refine List.ext_getElem (by simp) fun j hj _ => ?_
  obtain ⟨hjm, hj8⟩ : j < m ∧ j < 8 := by simpa using hj
  rw [List.getElem_take, List.getElem_take, getElem_toList x ⟨j, hj8⟩, getElem_toList y ⟨j, hj8⟩, hxy _ hjm]

/-- Settles O27: the digest is P.ow pieces of P.w bytes each, one per word. -/
theorem digestLayout : Obligations.DigestLayout := by
  refine ⟨fun s => ⟨digestOf_length s.var s.h, (digestOf_length s.var s.h).trans (rom_dl_eq s.var).symm⟩,
    fun s j k hj hk => getD_digestOf_toNat s.var s.h hj hk, fun s t hvar hwords => ?_⟩
  rw [digest, digest, digestOf, digestOf, ← hvar, take_toList_congr hwords]

/- ### RDBYTE -/

/-- The mask of R901 takes the number modulo 256; every word is wide enough to hold the mask. -/
theorem digestByte_toNat (s : State) (i : Nat) : (digestByte s i).toNat =
    (s.h.get (Fin.ofNat 8 (i / (rom s.var).wordBytes))).toNat % 2 ^ (rom s.var).wb /
      2 ^ (8 * ((rom s.var).wordBytes - 1 - i % (rom s.var).wordBytes)) % 256 := by
  have hmask : (0xFF : BitVec (rom s.var).wb).toNat = 2 ^ 8 - 1 := by
    obtain hwb | hwb := rom_wb_eq s.var <;> rw [hwb] <;> rfl
  simp only [digestByte, BitVec.toNat_and, hmask, Nat.and_two_pow_sub_one_eq_mod, BitVec.toNat_ushiftRight,
    BitVec.toNat_setWidth, Nat.shiftRight_eq_div_pow]

/-- The byte that RDBYTE cuts out of H is the byte of the serialized digest (R901). -/
theorem digestByte_toNat_eq_getD {s : State} {i : Nat} (hi : i < (rom s.var).dl) :
    (digestByte s i).toNat = ((digest s).getD i 0).toNat := by
  have hw := wordBytes_pos s.var
  have hword : i / (rom s.var).wordBytes < (rom s.var).ow := Nat.div_lt_of_lt_mul (by rwa [Nat.mul_comm, ← rom_dl_eq])
  have hindex : (Fin.ofNat 8 (i / (rom s.var).wordBytes)).val = i / (rom s.var).wordBytes :=
    Nat.mod_eq_of_lt (hword.trans_le (rom_ow_le s.var))
  have hbyte := getD_digestOf_toNat s.var s.h (hindex.symm ▸ hword) (Nat.mod_lt i hw)
  rw [hindex, Nat.div_add_mod'] at hbyte
  rw [digestByte_toNat, digest, hbyte]

theorem writeRes_digestByte {s : State} {i : Nat} (hi : i < (rom s.var).dl) :
    writeRes (digestByte s i) s = { s with res := ((digest s).getD i 0).setWidth 128 } := by
  have hres : (digestByte s i).setWidth 128 = ((digest s).getD i 0).setWidth 128 :=
    BitVec.eq_of_toNat_eq (by rw [BitVec.toNat_setWidth, BitVec.toNat_setWidth, digestByte_toNat_eq_getD hi])
  rw [writeRes, hres]

theorem exec_rdbyte_of_absorbing {s : State} (k : BitVec 8) (h : s.phase = .absorbing) :
    exec (.rdbyte k) s = .next (raise .digestNotReady s) := by
  simp [exec, execRdbyte, h]

theorem or_setWidth_eq_encode_rdbyte (k : BitVec 8) : 0x40000000 ||| k.setWidth 32 = encode (.rdbyte k) :=
  append_zero_or_setWidth (0x4#4 ++ 0#20) k

theorem not_decodes_rdbyte_of_zeroFieldB {w : CmdWord} (ho : opField w = 0x4) (hz : zeroFieldB w ≠ 0) :
    ¬∃ i, decode w = .ok i := by
  rw [decodes_iff_fields, ho]
  simpa using hz

/-- Settles O26: the mask and shift of the command cut out the byte that the serializer lays at the same index. -/
theorem rdbyteReadsDigestByte : Obligations.RdbyteReadsDigestByte := by
  refine ⟨fun k s => ?word, fun w s ho hz hs => ?illegal, fun k s hs hk => ?inRange,
    fun k s => exec_rdbyte_of_out_of_range, fun k s => exec_rdbyte_of_absorbing k,
    fun k s hs => exec_of_unconfigured hs nofun nofun, fun k s hs => exec_of_faulted hs nofun⟩
  case word => rw [or_setWidth_eq_encode_rdbyte, commonStep_encode]
  case illegal => exact commonStep_of_not_decodes (not_decodes_rdbyte_of_zeroFieldB ho hz) hs
  case inRange => rw [exec_rdbyte_of_finalized hs hk, writeRes_digestByte hk]

/- ### Truncation -/

/-- A compression reads neither P.ow, P.dl nor P.IV, so records that differ in these alone compress alike. -/
theorem nextChain_eq_of_rom {v v' : Variant} {ow dl : Nat} {IV : Words8 (rom v').wb}
    (hrom : rom v = { rom v' with ow := ow, dl := dl, IV := IV }) (h : Words8 64) (blk : List Byte) :
    nextChain v h blk = nextChain v' h blk := by
  rw [nextChain, hrom]
  rfl

/-- Of two variants with one word size, the one with fewer output words delivers the first bytes of the other's digest. -/
theorem digestOf_eq_take {v v' : Variant} (hwb : (rom v).wb = (rom v').wb) (how : (rom v).ow ≤ (rom v').ow)
    (h : Words8 64) : digestOf v h = (digestOf v' h).take ((rom v).ow * (rom v).wordBytes) := by
  have hw : (rom v).wordBytes = (rom v').wordBytes := by rw [Params.wordBytes, hwb, Params.wordBytes]
  rw [hw, digestOf, digestOf, take_flatMap_of_forall_length (fun _ => wordToBytesBE_length _ _)
    (by rwa [length_take_toList]), List.take_take, Nat.min_eq_left how, hwb, hw]

/-- Settles O55: the ROM records of a family differ in P.ow, P.dl and P.IV alone, and a digest of fewer words is the
first bytes of the longer one. -/
theorem truncatedVariantsShareComputation : Obligations.TruncatedVariantsShareComputation := by
  refine ⟨fun h blk => ⟨nextChain_eq_of_rom rfl h blk, nextChain_eq_of_rom rfl h blk, nextChain_eq_of_rom rfl h blk⟩,
    ⟨rfl, rfl, rfl⟩, by decide, fun s t hh hvar => ?_⟩
  have hfamily : (rom s.var).wb = (rom t.var).wb ∧ (rom s.var).ow ≤ (rom t.var).ow := by
    obtain ⟨hs, ht⟩ | ⟨hs, ht⟩ | ⟨hs, ht⟩ := hvar <;> rw [hs, ht] <;> decide
  obtain ⟨hwb, how⟩ := hfamily
  rw [digest, digest, hh, digestOf_eq_take hwb how]

end Sys2Proof.Machine
end

section
/-! SUPPORT. SIZE and RDSTAT as command words and as commands, STATUS as a number, and the source's operations as
command sequences that complete (`46_facade.md` R1000, R1002, R1005). -/

namespace Sys2Proof.Machine

/- ### SIZE and RDSTAT as command words -/

theorem encode_size : encode .size = 0x50000000 := by decide

theorem encode_rdstat : encode .rdstat = 0x60000000 := by decide

theorem not_decodes_size_or_rdstat_of_zeroFieldZ {w : CmdWord} (ho : opField w = 0x5 ∨ opField w = 0x6)
    (hz : zeroFieldZ w ≠ 0) : ¬∃ i, decode w = .ok i := by
  rw [decodes_iff_fields]
  obtain ho | ho := ho
  · simpa [ho] using hz
  · simpa [ho] using hz

/- ### SIZE -/

/-- A result as wide as RES is written as it is. -/
theorem writeRes_of_full_width (v : BitVec 128) (s : State) : writeRes v s = { s with res := v } := by
  rw [writeRes, BitVec.setWidth_eq]

/-- Settles O29: SIZE writes TL where there is a context; INIT sets TL to 0, and a FINAL that completes leaves
`afterFinal`, which keeps TL. -/
theorem sizeReadsCount : Obligations.SizeReadsCount := by
  refine ⟨fun s => ?word, fun w s ho hz hs => ?illegal, fun s hs => ?context,
    fun s hs => exec_of_unconfigured hs nofun nofun, fun s hs => exec_of_faulted hs nofun,
    fun v s t hs ht => ?afterInit, fun s t hs ht => ?afterFinal⟩
  case word => rw [← encode_size, commonStep_encode]
  case illegal => exact commonStep_of_not_decodes (not_decodes_size_or_rdstat_of_zeroFieldZ (.inl ho) hz) hs
  case context => rw [exec_size_of_context hs, writeRes_of_full_width]
  case afterInit =>
    rw [exec_init_of_variant v hs] at ht
    cases ht
    exact freshContext_tl v s
  case afterFinal =>
    rw [exec_final_eq_of_absorbing hs] at ht
    split_ifs at ht
    cases ht
    exact afterFinal_tl s

/- ### RDSTAT -/

/-- Two parts side by side as a number: the low part lies below the weight of the high one. -/
theorem toNat_append_eq_add {m n : Nat} (x : BitVec m) (y : BitVec n) :
    (x ++ y).toNat = x.toNat * 2 ^ n + y.toNat := by
  rw [BitVec.toNat_append, ← Nat.shiftLeft_add_eq_or_of_lt y.isLt, Nat.shiftLeft_eq]

/-- STATUS as a number: each field at the weight of its lowest bit (`10_state.md` R107). -/
theorem status_toNat (s : State) : (status s).toNat =
    (causeCode s.cause).toNat * 2 ^ 16 + s.bu.toNat % 128 * 2 ^ 8 + (variantCode s.var).toNat * 2 ^ 4 +
      (phaseCode s.phase).toNat := by
  simp only [status, toNat_append_eq_add, BitVec.extractLsb'_toNat, Nat.shiftRight_zero, BitVec.ofNat_eq_ofNat,
    BitVec.toNat_ofNat, Nat.zero_mod]
  omega

/-- Settles O31: RDSTAT has one outcome in every phase, and zero extension keeps the number that STATUS is. -/
theorem rdstatReadsStatus : Obligations.RdstatReadsStatus := by
  refine ⟨fun s => ?word, fun w s ho hz hs => ?illegal, fun s => exec_rdstat, fun s => ?layout⟩
  case word => rw [← encode_rdstat, commonStep_encode]
  case illegal => exact commonStep_of_not_decodes (not_decodes_size_or_rdstat_of_zeroFieldZ (.inr ho) hz) hs
  case layout => rw [BitVec.toNat_setWidth_of_le (by decide), status_toNat]

/- ### The source's operations -/

theorem exec_absorb_of_bu_lt {s : State} (b : Byte) (h : s.phase = .absorbing)
    (hbu : s.bu.toNat < (rom s.var).blockBytes) : exec (.absorb b) s = .next (afterByte b s) :=
  exec_absorb_of_absorbing b h (lt_of_lt_of_le hbu (blockBytes_le s.var))

/-- ABSORB keeps BU below P.B (`10_state.md` R105): BU moves on by one, or the block fills and BU is 0. -/
theorem afterByte_bu_toNat_lt (b : Byte) {s : State} (hbu : s.bu.toNat < (rom s.var).blockBytes) :
    (afterByte b s).bu.toNat < (rom s.var).blockBytes := by
  obtain hlt | hfull := Nat.lt_or_eq_of_le (Nat.succ_le_of_lt hbu)
  · obtain ⟨hnext, hsucc, -⟩ := afterByte_bu_of_lt b hlt
    rwa [hnext, hsucc]
  · obtain ⟨hzero, -⟩ := afterByte_of_full b hfull
    rw [hzero]
    exact blockBytes_pos s.var

/-- ABSORB in ABSORBING never faults, whatever the span; BU below P.B carries the argument from byte to byte. -/
theorem execAll_updateCmds {bytes : List Byte} {s : State} (hs : s.phase = .absorbing)
    (hbu : s.bu.toNat < (rom s.var).blockBytes) :
    ∃ t, execAll (updateCmds bytes) s = .next t ∧ t.phase = .absorbing ∧ t.cause = s.cause := by
  induction bytes generalizing s with
  | nil => exact ⟨s, rfl, hs, rfl⟩
  | cons b bytes ih =>
    have hbu' : (afterByte b s).bu.toNat < (rom (afterByte b s).var).blockBytes := by
      rw [afterByte_var]
      exact afterByte_bu_toNat_lt b hbu
    obtain ⟨t, ht, hphase, hcause⟩ := ih ((afterByte_phase b s).trans hs) hbu'
    exact ⟨t, (execAll_cons (exec_absorb_of_bu_lt b hs hbu)).trans ht, hphase, hcause.trans (afterByte_cause b s)⟩

/-- RDBYTEs of indices below P.dl write RES and nothing else (`45_digest.md` R901). -/
theorem execAll_rdbytes {ks : List Nat} {s : State} (hs : s.phase = .finalized) (hks : ∀ k ∈ ks, k < (rom s.var).dl) :
    ∃ r, execAll (ks.map fun k => .rdbyte (BitVec.ofNat 8 k)) s = .next { s with res := r } := by
  induction ks generalizing s with
  | nil => exact ⟨s.res, rfl⟩
  | cons k ks ih =>
    obtain ⟨hk, hks⟩ := List.forall_mem_cons.mp hks
    have hindex : (BitVec.ofNat 8 k).toNat < (rom s.var).dl := lt_of_le_of_lt (Nat.mod_le _ _) hk
    obtain ⟨r, hr⟩ := ih (s := writeRes (digestByte s (BitVec.ofNat 8 k).toNat) s) hs hks
    exact ⟨r, (execAll_cons (exec_rdbyte_of_finalized hs hindex)).trans hr⟩

theorem execAll_digestCmds {s : State} (hs : s.phase = .finalized) :
    ∃ r, execAll (digestCmds s.var) s = .next { s with res := r } :=
  execAll_rdbytes hs fun _ => List.mem_range.mp

/-- Settles O54: INIT and FINAL complete outright, the ABSORBs of `update` by induction on the span, and the RDBYTEs
after FINAL write RES alone, so PHASE and CAUSE stay as FINAL left them. -/
theorem facadeSequences : Obligations.FacadeSequences := by
  refine ⟨fun v => ⟨rfl, fun bytes => rfl, rfl, rfl, rfl, rfl⟩, fun v s hs => ?construct,
    fun bytes s => execAll_updateCmds, fun s hs hbu => ?final⟩
  case construct => exact execAll_cons (exec_init_of_variant v hs)
  case final =>
    obtain ⟨r, hr⟩ := execAll_digestCmds (afterFinal_phase s)
    exact ⟨{ afterFinal s with res := r }, (execAll_cons (exec_final_of_bu_lt hs hbu)).trans hr, rfl, rfl⟩

end Sys2Proof.Machine
end

section
/-! SUPPORT. Faults: the common step as the rule writes it, the condition under which each cause is raised, and FAULTED
until reset (`60_exceptions.md` R1100, R1110, R1111, R1112). -/

namespace Sys2Proof.Machine

/- ### The common step -/

theorem commonStep_of_ok {cmd : CmdWord} {i : Instr} (h : decode cmd = .ok i) (s : State) :
    commonStep cmd s = exec i s := by
  rw [commonStep, h]

theorem commonStep_of_error {cmd : CmdWord} {e : Illegal} (h : decode cmd = .error e) (s : State) :
    commonStep cmd s = execIllegal s := by
  rw [commonStep, h]

/-- In FAULTED a word that is not RDSTAT's is ignored, whether a command encodes it or not (R1111). -/
theorem commonStep_of_faulted {cmd : CmdWord} {s : State} (hs : s.phase = .faulted) (hcmd : cmd ≠ 0x60000000) :
    commonStep cmd s = .next s := by
  cases hd : decode cmd with
  | error e => rw [commonStep_of_error hd, execIllegal_of_faulted hs]
  | ok i =>
    have hi : i ≠ .rdstat := by
      rintro rfl
      exact hcmd (encode_of_decode hd ▸ encode_rdstat)
    rw [commonStep_of_ok hd, exec_of_faulted hs hi]

theorem commonStep_rdstat (s : State) : commonStep 0x60000000 s = exec .rdstat s := by
  rw [← encode_rdstat, commonStep_encode]

/-- Settles O6: the FAULTED check that each meaning makes for itself amounts to the rule's check in front of them all. -/
theorem commonStepIsTheRule : Obligations.CommonStepIsTheRule := by
  intro cmd s
  split_ifs with hs hcmd
  · rw [hcmd, commonStep_rdstat]
  · exact commonStep_of_faulted hs hcmd
  · cases hd : decode cmd with
    | error e => exact (commonStep_of_error hd s).trans (execIllegal_of_not_faulted hs)
    | ok i => exact commonStep_of_ok hd s

/- ### The cause table -/

theorem exec_absorb_eq_of_absorbing {s : State} (b : Byte) (h : s.phase = .absorbing) :
    exec (.absorb b) s =
      if s.bu.toNat < Config.bufferBytes then .next (afterByte b s) else .fault .noSuchBlockByte := by
  split_ifs with hb
  · exact exec_absorb_of_absorbing b h hb
  · simp [exec, execAbsorb, h, acceptByte_eq, hb, finish]

/-- The rows of the cause table (R1100): what a decoded word raises in a state outside FAULTED. -/
inductive Raises (s : State) : Except Illegal Instr → Cause → Prop where
  | illegalCmd (e) : Raises s (.error e) .illegalCmd
  | badVariant (var : BitVec 4) : 5 ≤ var.toNat → Raises s (.ok (.init var)) .badVariant
  | notConfigured (i) : s.phase = .unconfigured → (∀ var, i ≠ .init var) → i ≠ .rdstat → Raises s (.ok i) .notConfigured
  | absorbAfterFinal (b) : s.phase = .finalized → Raises s (.ok (.absorb b)) .absorbAfterFinal
  | finalTwice : s.phase = .finalized → Raises s (.ok .final) .finalTwice
  | digestNotReady (k) : s.phase = .absorbing → Raises s (.ok (.rdbyte k)) .digestNotReady
  | digestIndex (k : BitVec 8) : s.phase = .finalized → (rom s.var).dl ≤ k.toNat →
      Raises s (.ok (.rdbyte k)) .digestIndex

theorem Raises.ne_none {s : State} {d : Except Illegal Instr} {c : Cause} (h : Raises s d c) : c ≠ .none := by
  cases h <;> nofun

/-- A row's condition is sufficient: the word takes the fault entry with the row's cause. -/
theorem Raises.commonStep_eq {cmd : CmdWord} {s : State} {c : Cause} (h : Raises s (decode cmd) c)
    (hs : s.phase ≠ .faulted) : commonStep cmd s = .next (raise c s) := by
  cases hd : decode cmd with
  | error e =>
    rw [hd] at h
    cases h
    rw [commonStep_of_error hd, execIllegal_of_not_faulted hs]
  | ok i =>
    rw [hd] at h
    rw [commonStep_of_ok hd]
    cases h with
    | badVariant var hv => exact exec_init_of_reserved hs hv
    | notConfigured _ hp hinit hrdstat => exact exec_of_unconfigured hp hinit hrdstat
    | absorbAfterFinal b hp => exact exec_absorb_of_finalized b hp
    | finalTwice hp => exact exec_final_of_finalized hp
    | digestNotReady k hp => exact exec_rdbyte_of_absorbing k hp
    | digestIndex k hp hk => exact exec_rdbyte_of_out_of_range hp hk

/-- A command that needs a context either has one or raises NOT_CONFIGURED. -/
theorem raises_or_context {i : Instr} {s : State} (hs : s.phase ≠ .faulted) (hinit : ∀ var, i ≠ .init var)
    (hrdstat : i ≠ .rdstat) : (∃ c, Raises s (.ok i) c) ∨ s.phase = .absorbing ∨ s.phase = .finalized := by
  cases hp : s.phase with
  | unconfigured => exact .inl ⟨_, .notConfigured i hp hinit hrdstat⟩
  | absorbing => exact .inr (.inl rfl)
  | finalized => exact .inr (.inr rfl)
  | faulted => exact absurd hp hs

/-- A row's condition is necessary: a command that enters FAULTED met the condition of some row. -/
theorem exists_raises_of_exec {i : Instr} {s t : State} (hs : s.phase ≠ .faulted) (h : exec i s = .next t)
    (ht : t.phase = .faulted) : ∃ c, Raises s (.ok i) c := by
  have hfaulted {u : State} (hu : exec i s = .next u) : u.phase = .faulted := by
    rw [h] at hu
    cases hu
    exact ht
  cases i with
  | init var =>
    by_cases hv : 5 ≤ var.toNat
    · exact ⟨_, .badVariant var hv⟩
    · obtain ⟨v, rfl⟩ := exists_variantCode_eq (Nat.lt_of_not_le hv)
      exact nomatch hfaulted (exec_init_of_variant v hs)
  | absorb b =>
    obtain hc | hp | hp := raises_or_context (i := .absorb b) hs nofun nofun
    · exact hc
    · rw [exec_absorb_eq_of_absorbing b hp] at h
      split_ifs at h
      cases h
      exact absurd (afterByte_phase b s ▸ ht) hs
    · exact ⟨_, .absorbAfterFinal b hp⟩
  | final =>
    obtain hc | hp | hp := raises_or_context (i := .final) hs nofun nofun
    · exact hc
    · rw [exec_final_eq_of_absorbing hp] at h
      split_ifs at h
      cases h
      exact nomatch ht
    · exact ⟨_, .finalTwice hp⟩
  | rdbyte k =>
    obtain hc | hp | hp := raises_or_context (i := .rdbyte k) hs nofun nofun
    · exact hc
    · exact ⟨_, .digestNotReady k hp⟩
    · by_cases hk : (rom s.var).dl ≤ k.toNat
      · exact ⟨_, .digestIndex k hp hk⟩
      · exact absurd (hfaulted (exec_rdbyte_of_finalized hp (Nat.lt_of_not_le hk))) hs
  | size =>
    obtain hc | hp := raises_or_context (i := .size) hs nofun nofun
    · exact hc
    · exact absurd (hfaulted (exec_size_of_context hp)) hs
  | rdstat => exact absurd (hfaulted exec_rdstat) hs

/-- A word that enters FAULTED leaves the fault entry's state, with the cause of a row whose condition it met. -/
theorem exists_raises_of_commonStep {cmd : CmdWord} {s t : State} (hs : s.phase ≠ .faulted)
    (h : commonStep cmd s = .next t) (ht : t.phase = .faulted) : ∃ c, Raises s (decode cmd) c ∧ t = raise c s := by
  have hrow : ∃ c, Raises s (decode cmd) c := by
    cases hd : decode cmd with
    | error e => exact ⟨_, .illegalCmd e⟩
    | ok i => exact exists_raises_of_exec hs ((commonStep_of_ok hd s).symm.trans h) ht
  obtain ⟨c, hc⟩ := hrow
  rw [hc.commonStep_eq hs] at h
  cases h
  exact ⟨c, hc, rfl⟩

/-- The rows exclude each other, for a word leaves one state, whose CAUSE is the row's. -/
theorem commonStep_eq_raise_iff {cmd : CmdWord} {s : State} {c : Cause} (hs : s.phase ≠ .faulted) :
    commonStep cmd s = .next (raise c s) ↔ Raises s (decode cmd) c := by
  refine ⟨fun h => ?_, fun h => h.commonStep_eq hs⟩
  obtain ⟨c', hc, heq⟩ := exists_raises_of_commonStep hs h (raise_phase c s)
  obtain rfl : c = c' := congrArg State.cause heq
  exact hc

/-- Settles O13: `Raises` states the rows as constructors; here they are read off a cause at a time. -/
theorem faultCauseTable : Obligations.FaultCauseTable := by
  refine ⟨by decide, fun cmd s c hs => ?_⟩
  rw [commonStep_eq_raise_iff hs, and_iff_left_of_imp Raises.ne_none]
  generalize decode cmd = d
  cases c with
  | none => exact ⟨fun h => h.ne_none rfl, False.elim⟩
  | illegalCmd => exact ⟨fun | .illegalCmd e => ⟨e, rfl⟩, fun ⟨e, hd⟩ => hd ▸ .illegalCmd e⟩
  | badVariant => exact ⟨fun | .badVariant var hv => ⟨var, rfl, hv⟩, fun ⟨var, hd, hv⟩ => hd ▸ .badVariant var hv⟩
  | notConfigured =>
    refine ⟨fun | .notConfigured i hp hinit hrdstat => ⟨hp, ?_⟩, ?_⟩
    · cases i with
      | init var => exact absurd rfl (hinit var)
      | absorb b => exact .inl ⟨b, rfl⟩
      | final => exact .inr (.inl rfl)
      | rdbyte k => exact .inr (.inr (.inl ⟨k, rfl⟩))
      | size => exact .inr (.inr (.inr rfl))
      | rdstat => exact absurd rfl hrdstat
    · rintro ⟨hp, ⟨b, rfl⟩ | rfl | ⟨k, rfl⟩ | rfl⟩ <;> exact .notConfigured _ hp nofun nofun
  | absorbAfterFinal =>
    exact ⟨fun | .absorbAfterFinal b hp => ⟨hp, b, rfl⟩, fun ⟨hp, b, hd⟩ => hd ▸ .absorbAfterFinal b hp⟩
  | finalTwice => exact ⟨fun | .finalTwice hp => ⟨hp, rfl⟩, fun ⟨hp, hd⟩ => hd ▸ .finalTwice hp⟩
  | digestNotReady => exact ⟨fun | .digestNotReady k hp => ⟨hp, k, rfl⟩, fun ⟨hp, k, hd⟩ => hd ▸ .digestNotReady k hp⟩
  | digestIndex =>
    exact ⟨fun | .digestIndex k hp hk => ⟨hp, k, rfl, hk⟩, fun ⟨hp, k, hd, hk⟩ => hd ▸ .digestIndex k hp hk⟩

/- ### The fault entry -/

/-- Settles O12: the fields of the entry one by one; a word that enters FAULTED takes the entry with the cause of a row. -/
theorem faultEntryIsPrecise : Obligations.FaultEntryIsPrecise := by
  refine ⟨fun c s => ⟨rfl, rfl, rfl, rfl, rfl, rfl, rfl, rfl, rfl⟩, fun cmd s t hs h ht => ?_⟩
  obtain ⟨c, hc, rfl⟩ := exists_raises_of_commonStep hs h ht
  exact ⟨c, hc.ne_none, rfl⟩

/- ### FAULTED until reset -/

/-- In FAULTED a word can change RES alone (R1111). -/
theorem commonStep_faulted_frame (cmd : CmdWord) {s : State} (hs : s.phase = .faulted) :
    ∃ r, commonStep cmd s = .next { s with res := r } := by
  by_cases hcmd : cmd = 0x60000000
  · exact ⟨_, by rw [hcmd, commonStep_rdstat, exec_rdstat, writeRes]⟩
  · exact ⟨s.res, commonStep_of_faulted hs hcmd⟩

theorem takeAll_faulted_frame {acts : List HostAction} {s : State} (hs : s.phase = .faulted)
    (hreset : .reset ∉ acts) : ∃ r, takeAll acts s = .next { s with res := r } := by
  induction acts generalizing s with
  | nil => exact ⟨s.res, rfl⟩
  | cons act acts ih =>
    cases act with
    | reset => exact absurd List.mem_cons_self hreset
    | write cmd =>
      obtain ⟨r, hr⟩ := commonStep_faulted_frame cmd hs
      obtain ⟨r', hr'⟩ := ih (s := { s with res := r }) hs (mt (List.mem_cons_of_mem _) hreset)
      exact ⟨r', by rw [takeAll, takeAction, hr]; exact hr'⟩

/-- Settles O14: a word in FAULTED is RDSTAT's or ignored, so a sequence of words changes RES alone and keeps PHASE. -/
theorem faultedUntilReset : Obligations.FaultedUntilReset := by
  refine ⟨fun cmd s hs => ?word, fun acts s hs hreset => ?sequence, fun act s t hs h ht => ?leave⟩
  case word => rw [commonStepIsTheRule cmd s, if_pos hs, exec_rdstat, writeRes]
  case sequence =>
    obtain ⟨r, hr⟩ := takeAll_faulted_frame hs hreset
    exact ⟨_, hr, rfl⟩
  case leave =>
    cases act with
    | reset => rfl
    | write cmd =>
      obtain ⟨r, hr⟩ := commonStep_faulted_frame cmd hs
      cases hr.symm.trans h
      exact absurd hs ht

end Sys2Proof.Machine
end

section
/-! SUPPORT. The encoding both ways, the reserved words and the spec's decode vectors (`30_encoding.md` R302, R307, R308,
`95_test_vectors.md` section 2.10). -/

namespace Sys2Proof

/-- Settles O2: the decoder reads back the fields that the encoder laid side by side. -/
theorem decodeOfEncode : Obligations.DecodeOfEncode := decode_encode

/-- Settles O3: a word that decodes is made up of its opcode, zeros and its operand, which is its encoding. -/
theorem encodeOfDecode : Obligations.EncodeOfDecode := fun _ _ => encode_of_decode

/-- Settles O1: the sixteen words of the spec, each decoded. -/
theorem specWordsDecode : Obligations.SpecWordsDecode := by
  unfold Obligations.SpecWordsDecode
  decide

/- ### Reserved words -/

/-- The opcodes that no command has are 0x0 and 0x7 to 0xF (R308). -/
theorem opcode_reserved_iff (o : BitVec 4) :
    (o ≠ 0x1 ∧ o ≠ 0x2 ∧ o ≠ 0x3 ∧ o ≠ 0x4 ∧ o ≠ 0x5 ∧ o ≠ 0x6) ↔ o = 0x0 ∨ 0x7 ≤ o.toNat := by
  revert o
  decide

theorem decode_eq_reservedOpcode_iff (w : CmdWord) :
    decode w = .error .reservedOpcode ↔ opField w = 0x0 ∨ 0x7 ≤ (opField w).toNat := by
  rw [← opcode_reserved_iff]
  fun_cases decode w <;> simp_all

theorem decode_eq_nonzeroZeroField_iff (w : CmdWord) : decode w = .error .nonzeroZeroField ↔
    (opField w = 0x1 ∧ zeroFieldV w ≠ 0) ∨ ((opField w = 0x2 ∨ opField w = 0x4) ∧ zeroFieldB w ≠ 0) ∨
    ((opField w = 0x3 ∨ opField w = 0x5 ∨ opField w = 0x6) ∧ zeroFieldZ w ≠ 0) := by
  fun_cases decode w <;> simp_all

end Sys2Proof

namespace Sys2Proof.Machine

/-- Settles O5: the reasons are read off the decoder's branches; a refused word runs as an Illegal one. -/
theorem reservedWordsFault : Obligations.ReservedWordsFault := by
  refine ⟨decode_eq_reservedOpcode_iff, decode_eq_nonzeroZeroField_iff, by decide, fun w e s hd hs => ?_⟩
  rw [commonStep_of_error hd, execIllegal_of_not_faulted hs]

end Sys2Proof.Machine
end

section
/-! SUPPORT. The invariant of the context: the port's part in a step, what each completed command does to the invariant,
and the runs from reset (`10_state.md` section 1, `20_memory.md` R212, `70_reset_and_hazards.md` R1200 and R1201). -/

namespace Sys2Proof.Machine

/- ### One step -/

theorem step_of_port_nil {s : State} (h : s.port = []) : step s = .next s := by
  rw [step, takeNext, h]

theorem step_of_port_cons {s : State} {act : HostAction} {rest : List HostAction} (h : s.port = act :: rest) :
    step s = takeAction act { s with port := rest } := by
  rw [step, takeNext, h]

/-- Settles O8: the step of an empty port is the idle step. -/
theorem idleStepHoldsState : Obligations.IdleStepHoldsState := fun _ => step_of_port_nil

/-- Settles O7: the oldest action is a word, and the common step runs what it decodes to. -/
theorem stepRunsDecodedCommand : Obligations.StepRunsDecodedCommand := fun s cmd rest i hport hd => by
  rw [step_of_port_cons hport, takeAction, commonStep_of_ok hd]

/- ### The invariant -/

/-- The invariant speaks of the core's own elements, not of the host's pending actions. -/
theorem State.Inv.withPort {s : State} (h : s.Inv) (port : List HostAction) : ({ s with port := port } : State).Inv :=
  { h with }

theorem State.Inv.cause_eq_none {s : State} (h : s.Inv) (hs : s.phase ≠ .faulted) : s.cause = .none :=
  h.causeIffFaulted.mpr hs

theorem zero_get {w : Nat} (j : Fin 8) : (Words8.zero w).get j = 0 := by fin_cases j <;> rfl

theorem reset_inv : State.reset.Inv where
  bufferCanonical := reset_blk_wf
  fillBelowBlock := blockBytes_pos .sha224
  unusedBytesZero := fun _ _ => rfl
  chainFits := fun j => by rw [reset_h, zero_get]; exact Nat.two_pow_pos _
  countFits := Nat.two_pow_pos _
  causeIffFaulted := by simp
  finalizedEmpty := nofun
  unconfiguredIsReset := fun _ => rfl

/-- Settles O36: reset's elements meet the invariant, which does not speak of the port. -/
theorem resetMeetsInvariant : Obligations.ResetMeetsInvariant := reset_inv.withPort

/-- The fault entry keeps the context and sets a cause (`60_exceptions.md` R1110). -/
theorem State.Inv.raise {s : State} (h : s.Inv) {c : Cause} (hc : c ≠ .none) : (raise c s).Inv :=
  { h with
    causeIffFaulted := by simp [hc]
    finalizedEmpty := nofun
    unconfiguredIsReset := nofun }

/-- INIT's initial state fits the variant's words. -/
theorem initialChain_fits (v : Variant) (j : Fin 8) : ((initialChain v).get j).toNat < 2 ^ (rom v).wb := by
  rw [initialChain, get_map, BitVec.toNat_setWidth]
  exact lt_of_le_of_lt (Nat.mod_le _ _) (BitVec.isLt _)

theorem State.Inv.freshContext {s : State} (h : s.Inv) (hs : s.phase ≠ .faulted) (v : Variant) :
    (freshContext v s).Inv where
  bufferCanonical := cleared_wf
  fillBelowBlock := blockBytes_pos v
  unusedBytesZero := fun _ _ => rfl
  chainFits := initialChain_fits v
  countFits := Nat.two_pow_pos _
  causeIffFaulted := by simp [h.cause_eq_none hs]
  finalizedEmpty := nofun
  unconfiguredIsReset := nofun

/-- H after ABSORB is the old one or the result of a compression. -/
theorem afterByte_h_eq (b : Byte) (s : State) :
    (afterByte b s).h = s.h ∨ ∃ blk, (afterByte b s).h = nextChain s.var s.h blk := by
  simp only [afterByte]
  split_ifs
  · exact .inr ⟨_, rfl⟩
  · exact .inl rfl

theorem State.Inv.bu_lt {s : State} (h : s.Inv) : s.bu.toNat < Config.bufferBytes :=
  lt_of_lt_of_le h.fillBelowBlock (blockBytes_le s.var)

theorem State.Inv.afterByte {s : State} (h : s.Inv) (hs : s.phase = .absorbing) (b : Byte) : (afterByte b s).Inv where
  bufferCanonical := by
    rw [afterByte_blk]
    exact writeByte_wf h.bufferCanonical h.bu_lt
  fillBelowBlock := by
    rw [afterByte_var]
    exact afterByte_bu_toNat_lt b h.fillBelowBlock
  unusedBytesZero := fun i hi => by
    rw [afterByte_var] at hi
    have hne : i ≠ s.bu.toNat := (lt_of_lt_of_le h.fillBelowBlock hi).ne'
    rw [afterByte_blk, readByte_writeByte h.bufferCanonical, if_neg hne, h.unusedBytesZero i hi]
  chainFits := fun j => by
    rw [afterByte_var]
    obtain hh | ⟨blk, hh⟩ := afterByte_h_eq b s
    · rw [hh]; exact h.chainFits j
    · rw [hh]; exact nextChain_fits s.var s.h blk j
  countFits := by
    rw [afterByte_tl, afterByte_var, countByte_toNat]
    exact Nat.mod_lt _ (Nat.two_pow_pos _)
  causeIffFaulted := by rw [afterByte_cause, afterByte_phase]; exact h.causeIffFaulted
  finalizedEmpty := by simp [hs]
  unconfiguredIsReset := by simp [hs]

theorem State.Inv.afterFinal {s : State} (h : s.Inv) (hs : s.phase = .absorbing) : (afterFinal s).Inv where
  bufferCanonical := paddedBuffer_wf h.bufferCanonical h.fillBelowBlock
  fillBelowBlock := blockBytes_pos s.var
  unusedBytesZero := fun i (hi : (rom s.var).blockBytes ≤ i) => by
    rw [afterFinal_blk, readByte_paddedBuffer h.bufferCanonical h.fillBelowBlock, if_pos hi, h.unusedBytesZero i hi]
  chainFits := fun j => nextChain_fits s.var _ _ j
  countFits := h.countFits
  causeIffFaulted := by simp [h.cause_eq_none, hs]
  finalizedEmpty := fun _ => rfl
  unconfiguredIsReset := nofun

/-- A result written where there is a context, or after a fault, touches nothing that the invariant speaks of. -/
theorem State.Inv.writeRes {s : State} (h : s.Inv) (hs : s.phase ≠ .unconfigured) {w : Nat} (x : BitVec w) :
    (writeRes x s).Inv :=
  { h with unconfiguredIsReset := fun hp => absurd hp hs }

/-- In UNCONFIGURED the machine is as reset left it, so STATUS reads 0. -/
theorem State.Inv.status_eq_zero {s : State} (h : s.Inv) (hs : s.phase = .unconfigured) : status s = 0 := by
  have hreset : status { s with port := [] } = 0 := by rw [h.unconfiguredIsReset hs]; rfl
  exact hreset

theorem State.Inv.res_eq_zero {s : State} (h : s.Inv) (hs : s.phase = .unconfigured) : s.res = 0 :=
  congrArg State.res (h.unconfiguredIsReset hs)

/-- RDSTAT in UNCONFIGURED writes the 0 that RES holds already. -/
theorem State.Inv.writeRes_status_eq_self {s : State} (h : s.Inv) (hs : s.phase = .unconfigured) :
    Machine.writeRes (status s) s = s := by
  have hres : (0 : BitVec 32).setWidth 128 = s.res := by rw [h.res_eq_zero hs]; rfl
  rw [Machine.writeRes, h.status_eq_zero hs, hres]

/-- Every completed command keeps the invariant. -/
theorem ExecResult.inv {i : Instr} {s t : State} (hr : ExecResult i s t) (h : s.Inv) : t.Inv := by
  cases hr with
  | same => exact h
  | fault c _ hc => exact h.raise hc
  | init v _ hs => exact h.freshContext hs v
  | absorb b _ hs => exact h.afterByte hs b
  | final _ hs => exact h.afterFinal hs
  | rdbyte k _ hs => exact h.writeRes (by simp [hs]) _
  | size _ hs =>
    have hne : s.phase ≠ .unconfigured := by obtain hs | hs := hs <;> simp [hs]
    exact h.writeRes hne _
  | rdstat =>
    by_cases hs : s.phase = .unconfigured
    · rwa [h.writeRes_status_eq_self hs]
    · exact h.writeRes hs _

theorem commonStep_inv {cmd : CmdWord} {s t : State} (h : s.Inv) (ht : commonStep cmd s = .next t) : t.Inv := by
  obtain ⟨i, -, hr⟩ | ⟨-, rfl⟩ | ⟨-, rfl⟩ := commonStep_cases ht
  · exact hr.inv h
  · exact h
  · exact h.raise (by simp)

theorem takeAction_inv {act : HostAction} {s t : State} (h : s.Inv) (ht : takeAction act s = .next t) : t.Inv := by
  cases act with
  | reset => cases ht; exact reset_inv.withPort _
  | write cmd => exact commonStep_inv h ht

theorem step_inv {s t : State} (h : s.Inv) (ht : step s = .next t) : t.Inv := by
  cases hport : s.port with
  | nil =>
    rw [step_of_port_nil hport] at ht
    cases ht
    exact h
  | cons act rest =>
    rw [step_of_port_cons hport] at ht
    exact takeAction_inv (h.withPort rest) ht

/-- Settles O37: each way a command can complete keeps the invariant, and so do reset, an Illegal word and the idle
step. -/
theorem stepKeepsInvariant : Obligations.StepKeepsInvariant := fun _ _ => step_inv

end Sys2Proof.Machine
end

section
/-! SUPPORT. Runs: every command completes while BLK[BU] exists, the runs from reset, the order of the host's actions, and
reset itself (`10_state.md` R105, `20_memory.md` R212, `70_reset_and_hazards.md` R1200, R1201). -/

namespace Sys2Proof.Machine

/- ### Completion -/

/-- A command whose row's condition holds takes the fault entry. -/
theorem Raises.exec_eq {i : Instr} {s : State} {c : Cause} (h : Raises s (.ok i) c) (hs : s.phase ≠ .faulted) :
    exec i s = .next (raise c s) := by
  rw [← decode_encode i] at h
  rw [← commonStep_encode, h.commonStep_eq hs]

/-- While BLK[BU] exists every command completes: the model's own fault needs an index above 127 (`20_memory.md`
R200). -/
theorem exec_completes (i : Instr) {s : State} (hbu : s.bu.toNat < Config.bufferBytes) : ∃ t, exec i s = .next t := by
  by_cases hs : s.phase = .faulted
  · by_cases hi : i = .rdstat
    · exact ⟨_, hi ▸ exec_rdstat⟩
    · exact ⟨_, exec_of_faulted hs hi⟩
  cases i with
  | init var =>
    by_cases hv : 5 ≤ var.toNat
    · exact ⟨_, exec_init_of_reserved hs hv⟩
    · obtain ⟨v, rfl⟩ := exists_variantCode_eq (Nat.lt_of_not_le hv)
      exact ⟨_, exec_init_of_variant v hs⟩
  | absorb b =>
    obtain ⟨c, hc⟩ | hp | hp := raises_or_context (i := .absorb b) hs nofun nofun
    · exact ⟨_, hc.exec_eq hs⟩
    · exact ⟨_, exec_absorb_of_absorbing b hp hbu⟩
    · exact ⟨_, exec_absorb_of_finalized b hp⟩
  | final =>
    obtain ⟨c, hc⟩ | hp | hp := raises_or_context (i := .final) hs nofun nofun
    · exact ⟨_, hc.exec_eq hs⟩
    · exact ⟨_, exec_final_of_absorbing hp hbu⟩
    · exact ⟨_, exec_final_of_finalized hp⟩
  | rdbyte k =>
    obtain ⟨c, hc⟩ | hp | hp := raises_or_context (i := .rdbyte k) hs nofun nofun
    · exact ⟨_, hc.exec_eq hs⟩
    · exact ⟨_, exec_rdbyte_of_absorbing k hp⟩
    · by_cases hk : k.toNat < (rom s.var).dl
      · exact ⟨_, exec_rdbyte_of_finalized hp hk⟩
      · exact ⟨_, exec_rdbyte_of_out_of_range hp (Nat.le_of_not_lt hk)⟩
  | size =>
    obtain ⟨c, hc⟩ | hp := raises_or_context (i := .size) hs nofun nofun
    · exact ⟨_, hc.exec_eq hs⟩
    · exact ⟨_, exec_size_of_context hp⟩
  | rdstat => exact ⟨_, exec_rdstat⟩

theorem takeAction_completes (act : HostAction) {s : State} (hbu : s.bu.toNat < Config.bufferBytes) :
    ∃ t, takeAction act s = .next t := by
  cases act with
  | reset => exact ⟨_, rfl⟩
  | write cmd =>
    cases hd : decode cmd with
    | ok i =>
      obtain ⟨t, ht⟩ := exec_completes i hbu
      exact ⟨t, (commonStep_of_ok hd s).trans ht⟩
    | error e =>
      by_cases hs : s.phase = .faulted
      · exact ⟨_, (commonStep_of_error hd s).trans (execIllegal_of_faulted hs)⟩
      · exact ⟨_, (commonStep_of_error hd s).trans (execIllegal_of_not_faulted hs)⟩

theorem State.Inv.step_completes {s : State} (h : s.Inv) : ∃ t, step s = .next t := by
  cases hport : s.port with
  | nil => exact ⟨s, step_of_port_nil hport⟩
  | cons act rest =>
    rw [step_of_port_cons hport]
    exact takeAction_completes act h.bu_lt

/-- Settles O38: the invariant keeps BU below P.B, so BLK[BU] exists and the pending action completes. -/
theorem invariantStepCompletes : Obligations.InvariantStepCompletes := fun _ => State.Inv.step_completes

/- ### Runs -/

theorem State.Inv.runSteps {s : State} (h : s.Inv) (n : Nat) : ∃ t, runSteps n s = .next t ∧ t.Inv := by
  induction n generalizing s with
  | zero => exact ⟨s, rfl, h⟩
  | succ n ih =>
    obtain ⟨t, ht⟩ := h.step_completes
    rw [Machine.runSteps, ht]
    exact ih (step_inv h ht)

/-- Settles O39: reset meets the invariant, and a state that meets it completes a step into another that does. -/
theorem runsFromResetAreSafe : Obligations.RunsFromResetAreSafe := fun port n => by
  have hrun (k : Nat) := (reset_inv.withPort port).runSteps k
  refine ⟨fun k _ => ?_, fun t ht => ?_⟩
  · obtain ⟨t, ht, -⟩ := hrun k
    exact ⟨t, ht⟩
  · obtain ⟨u, hu, hinv⟩ := hrun n
    cases hu.symm.trans ht
    exact hinv

/- ### The order of the host's actions -/

/-- An outcome whose next state, where it has one, is put through f. -/
def mapNext (f : State → State) : Host.Outcome State Fault Refusal → Host.Outcome State Fault Refusal
  | .next t => .next (f t)
  | .fault r => .fault r
  | .refused r => .refused r

/-- s with other pending actions. -/
def State.withPort (port : List HostAction) (s : State) : State := { s with port := port }

section withPort
variable (port : List HostAction) (s : State)
@[simp] theorem withPort_phase : (s.withPort port).phase = s.phase := rfl
@[simp] theorem withPort_var : (s.withPort port).var = s.var := rfl
@[simp] theorem withPort_bu : (s.withPort port).bu = s.bu := rfl
end withPort

theorem afterByte_withPort (b : Byte) (port : List HostAction) (s : State) :
    afterByte b (s.withPort port) = (afterByte b s).withPort port := by
  simp only [afterByte, apply_ite (State.withPort port)]
  rfl

/-- No command reads or writes the pending actions. -/
theorem exec_withPort (i : Instr) (port : List HostAction) (s : State) :
    exec i (s.withPort port) = mapNext (State.withPort port) (exec i s) := by
  cases i with
  | init var =>
    simp only [exec, execInit, withPort_phase]
    cases s.phase with
    | faulted => rfl
    | unconfigured | absorbing | finalized => cases variantOfCode var <;> rfl
  | absorb b =>
    simp only [exec, execAbsorb, withPort_phase, withPort_bu, acceptByte_eq, afterByte_withPort]
    cases s.phase with
    | absorbing => by_cases hbu : s.bu.toNat < Config.bufferBytes <;> simp only [hbu, reduceIte] <;> rfl
    | unconfigured | finalized | faulted => rfl
  | final =>
    simp only [exec, execFinal, withPort_phase, withPort_bu, finalize_eq]
    cases s.phase with
    | absorbing => by_cases hbu : s.bu.toNat < Config.bufferBytes <;> simp only [hbu, reduceIte] <;> rfl
    | unconfigured | finalized | faulted => rfl
  | rdbyte k =>
    simp only [exec, execRdbyte, withPort_phase, withPort_var]
    cases s.phase with
    | finalized => by_cases hk : imm8Index k ≥ (rom s.var).dl <;> simp only [hk, reduceIte] <;> rfl
    | unconfigured | absorbing | faulted => rfl
  | size => cases hp : s.phase <;> simp only [exec, execSize, withPort_phase, hp] <;> rfl
  | rdstat => rfl

theorem execIllegal_withPort (port : List HostAction) (s : State) :
    execIllegal (s.withPort port) = mapNext (State.withPort port) (execIllegal s) := by
  simp only [execIllegal, withPort_phase]
  cases s.phase <;> rfl

/-- What an action does to the core is the same whatever is pending behind it. -/
theorem takeAction_withPort (act : HostAction) (port : List HostAction) (s : State) :
    takeAction act (s.withPort port) = mapNext (State.withPort port) (takeAction act s) := by
  cases act with
  | reset => rfl
  | write cmd =>
    simp only [takeAction]
    cases hd : decode cmd with
    | ok i => rw [commonStep_of_ok hd, commonStep_of_ok hd, exec_withPort]
    | error e => rw [commonStep_of_error hd, commonStep_of_error hd, execIllegal_withPort]

theorem runSteps_withPort_append (acts rest : List HostAction) (s : State) :
    runSteps acts.length (s.withPort (acts ++ rest)) = takeAll acts (s.withPort rest) := by
  induction acts generalizing s with
  | nil => rfl
  | cons act acts ih =>
    have hstep : step (s.withPort (act :: acts ++ rest)) = takeAction act (s.withPort (acts ++ rest)) :=
      step_of_port_cons rfl
    rw [List.length_cons, runSteps, hstep, takeAll, takeAction_withPort, takeAction_withPort]
    cases takeAction act s with
    | next t => exact ih t
    | fault r => rfl
    | refused r => rfl

/-- Settles O9: a step takes the oldest action, which does to the core what it does with only the later ones of the host
pending. -/
theorem portRunsInOrder : Obligations.PortRunsInOrder := runSteps_withPort_append

/- ### Reset -/

theorem commonStep_port {cmd : CmdWord} {s t : State} (h : commonStep cmd s = .next t) : t.port = s.port := by
  obtain ⟨i, hd, -⟩ | ⟨-, rfl⟩ | ⟨-, rfl⟩ := commonStep_cases h
  · exact exec_port ((commonStep_of_ok hd s).symm.trans h)
  · rfl
  · rfl

/-- A completed command keeps CAUSE or sets one. -/
theorem ExecResult.cause_eq_or_ne_none {i : Instr} {s t : State} (h : ExecResult i s t) :
    t.cause = s.cause ∨ t.cause ≠ .none := by
  cases h with
  | fault c _ hc => exact .inr hc
  | absorb b => exact .inl (afterByte_cause b s)
  | same | init | final | rdbyte | size | rdstat => exact .inl rfl

theorem commonStep_cause_ne_none {cmd : CmdWord} {s t : State} (h : commonStep cmd s = .next t)
    (hs : s.cause ≠ .none) : t.cause ≠ .none := by
  obtain ⟨i, -, hr⟩ | ⟨-, rfl⟩ | ⟨-, rfl⟩ := commonStep_cases h
  · obtain hc | hc := hr.cause_eq_or_ne_none
    · rwa [hc]
    · exact hc
  · exact hs
  · simp

/-- Settles O10: reset reads the port alone, which no command changes; no word clears CAUSE or leaves FAULTED. -/
theorem resetSetsEveryElement : Obligations.ResetSetsEveryElement := by
  refine ⟨fun s => ⟨_, rfl, rfl, rfl, rfl, zero_get, rfl, fun i => rfl, wf_nil, rfl, rfl, rfl, rfl⟩,
    fun cmd s t h => ?_, fun act s t h hclear => ?_⟩
  · simp only [takeAction, resetCore_eq, commonStep_port h]
  · cases act with
    | reset => rfl
    | write cmd =>
      obtain ⟨hs, ht⟩ | ⟨hs, ht⟩ := hclear
      · exact absurd ht (commonStep_cause_ne_none h hs)
      · obtain ⟨-, -, hleave⟩ := faultedUntilReset
        exact hleave _ s t hs h ht

/-- Settles O11: every other command raises NOT_CONFIGURED, and STATUS reads 0 since the machine is as reset left it. -/
theorem unconfiguredAcceptsInitAndRdstat : Obligations.UnconfiguredAcceptsInitAndRdstat := by
  intro s h hs
  have hne : s.phase ≠ .faulted := by simp [hs]
  refine ⟨fun v => exec_init_of_variant v hne, ?_, h.status_eq_zero hs, fun b => exec_of_unconfigured hs nofun nofun,
    exec_of_unconfigured hs nofun nofun, fun k => exec_of_unconfigured hs nofun nofun,
    exec_of_unconfigured hs nofun nofun, fun w e hd => ?_, step_of_port_nil⟩
  · rw [exec_rdstat, h.status_eq_zero hs]
    rfl
  · rw [commonStep_of_error hd, execIllegal_of_not_faulted hne]

end Sys2Proof.Machine
end

section
/-! SUPPORT. The byte stream of a context: a byte sequence as whole blocks and a rest, the ABSORBs of a span as one function
of the state, and the source's span loop (`43_buffer.md` R705, R710 to R713). -/

namespace Sys2Proof.Machine

/- ### A byte sequence as whole blocks and a rest -/

/-- The bytes behind the whole blocks of a sequence: what stays in the buffer. -/
def partialBlock (v : Variant) (bytes : List Byte) : List Byte :=
  bytes.drop (bytes.length - bytes.length % (rom v).blockBytes)

@[simp] theorem wholeBlocks_length (v : Variant) (bytes : List Byte) :
    (wholeBlocks v bytes).length = bytes.length / (rom v).blockBytes := by
  simp [wholeBlocks]

theorem wholeBlocks_of_lt {v : Variant} {bytes : List Byte} (h : bytes.length < (rom v).blockBytes) :
    wholeBlocks v bytes = [] := by
  simp [wholeBlocks, Nat.div_eq_of_lt h]

theorem partialBlock_of_lt {v : Variant} {bytes : List Byte} (h : bytes.length < (rom v).blockBytes) :
    partialBlock v bytes = bytes := by
  simp [partialBlock, Nat.mod_eq_of_lt h]

/-- A block in front is the first whole block. -/
theorem wholeBlocks_block_append {v : Variant} {blk : List Byte} (hblk : blk.length = (rom v).blockBytes)
    (bytes : List Byte) : wholeBlocks v (blk ++ bytes) = blk :: wholeBlocks v bytes := by
  have hcount : (blk ++ bytes).length / (rom v).blockBytes = bytes.length / (rom v).blockBytes + 1 := by
    rw [List.length_append, hblk, Nat.add_div_left _ (blockBytes_pos v)]
  rw [wholeBlocks, hcount, List.range_succ_eq_map, List.map_cons, List.map_map, Nat.zero_mul, List.drop_zero,
    List.take_left' hblk]
  refine congrArg _ (List.map_congr_left fun j _ => ?_)
  rw [Function.comp, Nat.succ_mul, Nat.add_comm, ← List.drop_drop, List.drop_left' hblk]

theorem partialBlock_block_append {v : Variant} {blk : List Byte} (hblk : blk.length = (rom v).blockBytes)
    (bytes : List Byte) : partialBlock v (blk ++ bytes) = partialBlock v bytes := by
  have hskip : (blk ++ bytes).length - (blk ++ bytes).length % (rom v).blockBytes =
      blk.length + (bytes.length - bytes.length % (rom v).blockBytes) := by
    rw [List.length_append, hblk, Nat.add_mod_left, Nat.add_sub_assoc (Nat.mod_le _ _)]
  rw [partialBlock, hskip, List.drop_append, partialBlock]
  simp

/-- The blocks of a sequence in two parts: those of the first part, then those of its rest with the second part. -/
theorem blocks_append (v : Variant) (x y : List Byte) :
    wholeBlocks v (x ++ y) = wholeBlocks v x ++ wholeBlocks v (partialBlock v x ++ y) ∧
      partialBlock v (x ++ y) = partialBlock v (partialBlock v x ++ y) := by
  induction hn : x.length using Nat.strong_induction_on generalizing x with
  | _ n ih =>
    obtain hlt | hge := Nat.lt_or_ge x.length (rom v).blockBytes
    · rw [wholeBlocks_of_lt hlt, partialBlock_of_lt hlt]
      exact ⟨rfl, rfl⟩
    · have hblk : (x.take (rom v).blockBytes).length = (rom v).blockBytes := List.length_take_of_le hge
      have hpos := blockBytes_pos v
      obtain ⟨hw, hp⟩ := ih _ (by rw [List.length_drop]; omega) (x.drop (rom v).blockBytes) rfl
      rw [← List.take_append_drop (rom v).blockBytes x, List.append_assoc, wholeBlocks_block_append hblk,
        wholeBlocks_block_append hblk, partialBlock_block_append hblk, partialBlock_block_append hblk, hw, hp]
      exact ⟨rfl, rfl⟩

theorem wholeBlocks_append (v : Variant) (x y : List Byte) :
    wholeBlocks v (x ++ y) = wholeBlocks v x ++ wholeBlocks v (partialBlock v x ++ y) :=
  (blocks_append v x y).1

theorem wholeBlocks_block {v : Variant} {blk : List Byte} (hblk : blk.length = (rom v).blockBytes) :
    wholeBlocks v blk = [blk] := by
  have h := wholeBlocks_block_append hblk []
  rwa [List.append_nil, wholeBlocks_of_lt (bytes := []) (blockBytes_pos v)] at h

theorem partialBlock_block {v : Variant} {blk : List Byte} (hblk : blk.length = (rom v).blockBytes) :
    partialBlock v blk = [] := by
  have h := partialBlock_block_append hblk []
  rwa [List.append_nil, partialBlock_of_lt (bytes := []) (blockBytes_pos v)] at h

theorem length_of_mem_wholeBlocks {v : Variant} {bytes blk : List Byte} (h : blk ∈ wholeBlocks v bytes) :
    blk.length = (rom v).blockBytes := by
  obtain ⟨j, hj, rfl⟩ := List.mem_map.mp h
  have hend : (j + 1) * (rom v).blockBytes ≤ bytes.length :=
    (Nat.le_div_iff_mul_le (blockBytes_pos v)).mp (List.mem_range.mp hj)
  rw [Nat.succ_mul] at hend
  rw [List.length_take_of_le (by rw [List.length_drop]; omega)]

theorem chainOver_append (v : Variant) (h : Words8 64) (x y : List (List Byte)) :
    chainOver v h (x ++ y) = chainOver v (chainOver v h x) y :=
  List.foldl_append

/- ### One ABSORB on the stream -/

@[simp] theorem bufferTail_length (s : State) : (bufferTail s).length = s.bu.toNat := by simp [bufferTail]

@[simp] theorem wholeBlock_length (s : State) : (wholeBlock s).length = (rom s.var).blockBytes := by simp [wholeBlock]

theorem bufferTail_of_bu_zero {s : State} (h : s.bu = 0) : bufferTail s = [] := by simp [bufferTail, h]

/-- BLK[0..n-1]. -/
def firstBytes (m : Memory) (n : Nat) : List Byte := (List.range n).map fun i => readByte i m

theorem bufferTail_eq (s : State) : bufferTail s = firstBytes s.blk s.bu.toNat := rfl

theorem wholeBlock_eq (s : State) : wholeBlock s = firstBytes s.blk (rom s.var).blockBytes := rfl

/-- Up to the end of a sequence just written, the buffer holds its old bytes and then the sequence. -/
theorem firstBytes_writeBytes {m : Memory} {i : Nat} {bytes : List Byte} (hw : Memory.wf m)
    (hi : i + bytes.length ≤ Config.bufferBytes) :
    firstBytes (writeBytes i bytes m) (i + bytes.length) = firstBytes m i ++ bytes := by
  rw [firstBytes, List.range_add, List.map_append, List.map_map, firstBytes]
  congr 1
  · refine List.map_congr_left fun j hj => ?_
    have hj : j < i := List.mem_range.mp hj
    rw [readByte_writeBytes hw hi, if_neg (by omega)]
  · refine List.ext_getElem (by simp) fun k hk _ => ?_
    have hk : k < bytes.length := by simpa using hk
    simp [readByte_writeBytes hw hi, hk]

/-- ABSORB appends its byte to the buffer's bytes: a whole block goes into H, the rest stays (R705). -/
theorem afterByte_stream {s : State} (hw : Memory.wf s.blk) (hbu : s.bu.toNat < (rom s.var).blockBytes) (b : Byte) :
    (afterByte b s).h = chainOver s.var s.h (wholeBlocks s.var (bufferTail s ++ [b])) ∧
      bufferTail (afterByte b s) = partialBlock s.var (bufferTail s ++ [b]) := by
  have hbytes : firstBytes (writeByte s.bu.toNat b s.blk) (s.bu.toNat + 1) = bufferTail s ++ [b] :=
    firstBytes_writeBytes (bytes := [b]) hw (hbu.trans_le (blockBytes_le s.var))
  have hlen : (bufferTail s ++ [b]).length = s.bu.toNat + 1 := by simp
  obtain hlt | hfull := Nat.lt_or_eq_of_le (Nat.succ_le_of_lt hbu)
  · obtain ⟨hnext, hsucc, hh⟩ := afterByte_bu_of_lt b hlt
    rw [wholeBlocks_of_lt (hlen.trans_lt hlt), partialBlock_of_lt (hlen.trans_lt hlt), bufferTail_eq, hnext,
      hsucc, afterByte_blk]
    exact ⟨hh, hbytes⟩
  · obtain ⟨hzero, hh⟩ := afterByte_of_full b hfull
    have hblock : wholeBlock (afterByte b s) = bufferTail s ++ [b] := by
      rw [wholeBlock_eq, afterByte_var, afterByte_blk, ← hfull, hbytes]
    rw [wholeBlocks_block (hlen.trans hfull), partialBlock_block (hlen.trans hfull), bufferTail_of_bu_zero hzero, hh,
      hblock]
    exact ⟨rfl, rfl⟩

/-- BU counts the bytes of the stream modulo the block size. -/
theorem afterByte_bu_toNat (b : Byte) {s : State} (hbu : s.bu.toNat < (rom s.var).blockBytes) :
    (afterByte b s).bu.toNat = (s.bu.toNat + 1) % (rom s.var).blockBytes := by
  obtain hlt | hfull := Nat.lt_or_eq_of_le (Nat.succ_le_of_lt hbu)
  · obtain ⟨hnext, hsucc, -⟩ := afterByte_bu_of_lt b hlt
    rw [hnext, hsucc, Nat.mod_eq_of_lt hlt]
  · obtain ⟨hzero, -⟩ := afterByte_of_full b hfull
    rw [hzero, ← hfull, Nat.mod_self]
    rfl

/-- ABSORB compresses as often as the stream passes a block boundary. -/
theorem compressions_absorb_of_absorbing (b : Byte) {s : State} (hs : s.phase = .absorbing)
    (hbu : s.bu.toNat < (rom s.var).blockBytes) :
    compressions (.absorb b) s = (s.bu.toNat + 1) / (rom s.var).blockBytes := by
  simp only [compressions, hs]
  obtain hlt | hfull := Nat.lt_or_eq_of_le (Nat.succ_le_of_lt hbu)
  · rw [if_neg hlt.ne, Nat.div_eq_of_lt hlt]
  · rw [if_pos hfull, ← hfull, Nat.div_self (Nat.succ_pos _)]

/- ### The ABSORBs of a span -/

/-- The state after one ABSORB per byte of a span, in ABSORBING with BU below P.B. -/
def absorbAll (bytes : List Byte) (s : State) : State := bytes.foldl (fun u b => afterByte b u) s

@[simp] theorem absorbAll_cons (b : Byte) (bytes : List Byte) (s : State) :
    absorbAll (b :: bytes) s = absorbAll bytes (afterByte b s) := rfl

theorem absorbAll_append (x y : List Byte) (s : State) : absorbAll (x ++ y) s = absorbAll y (absorbAll x s) :=
  List.foldl_append

/-- A context that takes bytes: ABSORBING, with BU below P.B (R105). -/
structure Absorbing (s : State) : Prop where
  phase : s.phase = .absorbing
  room : s.bu.toNat < (rom s.var).blockBytes

theorem Absorbing.afterByte {s : State} (h : Absorbing s) (b : Byte) : Absorbing (afterByte b s) where
  phase := (afterByte_phase b s).trans h.phase
  room := by rw [afterByte_var]; exact afterByte_bu_toNat_lt b h.room

theorem Absorbing.exec_absorb {s : State} (h : Absorbing s) (b : Byte) :
    exec (.absorb b) s = .next (Machine.afterByte b s) :=
  exec_absorb_of_bu_lt b h.phase h.room

theorem Absorbing.absorbAll {s : State} (h : Absorbing s) (bytes : List Byte) : Absorbing (absorbAll bytes s) := by
  induction bytes generalizing s with
  | nil => exact h
  | cons b bytes ih => exact ih (h.afterByte b)

@[simp] theorem absorbAll_var (bytes : List Byte) (s : State) : (absorbAll bytes s).var = s.var := by
  induction bytes generalizing s with
  | nil => rfl
  | cons b bytes ih => rw [absorbAll_cons, ih, afterByte_var]

/-- The command sequence of `update` carries out `absorbAll`. -/
theorem Absorbing.execAll_updateCmds {s : State} (h : Absorbing s) (bytes : List Byte) :
    execAll (updateCmds bytes) s = .next (Machine.absorbAll bytes s) := by
  induction bytes generalizing s with
  | nil => rfl
  | cons b bytes ih => exact (execAll_cons (h.exec_absorb b)).trans (ih (h.afterByte b))

theorem absorbAll_wf {s : State} (hw : Memory.wf s.blk) (h : Absorbing s) (bytes : List Byte) :
    Memory.wf (absorbAll bytes s).blk := by
  induction bytes generalizing s with
  | nil => exact hw
  | cons b bytes ih =>
    refine ih ?_ (h.afterByte b)
    rw [afterByte_blk]
    exact writeByte_wf hw (lt_of_lt_of_le h.room (blockBytes_le s.var))

/-- A quotient taken in two goes. -/
theorem add_div_of_mod (a n B : Nat) (hB : 0 < B) : a / B + (a % B + n) / B = (a + n) / B := by
  conv_rhs => rw [← Nat.div_add_mod a B, Nat.add_assoc, Nat.mul_add_div hB]

theorem Absorbing.absorbAll_bu {s : State} (h : Absorbing s) (bytes : List Byte) :
    (Machine.absorbAll bytes s).bu.toNat = (s.bu.toNat + bytes.length) % (rom s.var).blockBytes := by
  induction bytes generalizing s with
  | nil => exact (Nat.mod_eq_of_lt h.room).symm
  | cons b bytes ih =>
    rw [absorbAll_cons, ih (h.afterByte b), afterByte_var, afterByte_bu_toNat b h.room, Nat.mod_add_mod,
      List.length_cons, Nat.add_assoc, Nat.add_comm 1]

/-- TL counts modulo 2^P.L; a span of no bytes leaves it as it is. -/
theorem absorbAll_tl (bytes : List Byte) (s : State) (hne : bytes ≠ []) :
    (absorbAll bytes s).tl.toNat = (s.tl.toNat + bytes.length) % 2 ^ (rom s.var).lenBits := by
  induction bytes generalizing s with
  | nil => exact absurd rfl hne
  | cons b bytes ih =>
    obtain rfl | hne' := eq_or_ne bytes []
    · exact (congrArg BitVec.toNat (afterByte_tl b s)).trans (countByte_toNat s.var s.tl)
    · rw [absorbAll_cons, ih _ hne', afterByte_var, afterByte_tl, countByte_toNat, Nat.mod_add_mod,
        List.length_cons, Nat.add_assoc, Nat.add_comm 1]

theorem Absorbing.totalCompressions_updateCmds {s : State} (h : Absorbing s) (bytes : List Byte) :
    totalCompressions (updateCmds bytes) s = (s.bu.toNat + bytes.length) / (rom s.var).blockBytes := by
  induction bytes generalizing s with
  | nil => exact (Nat.div_eq_of_lt h.room).symm
  | cons b bytes ih =>
    have hfirst : totalCompressions (updateCmds (b :: bytes)) s =
        compressions (.absorb b) s + totalCompressions (updateCmds bytes) (Machine.afterByte b s) := by
      rw [updateCmds, List.map_cons, totalCompressions, h.exec_absorb b]
      rfl
    rw [hfirst, ih (h.afterByte b), compressions_absorb_of_absorbing b h.phase h.room, afterByte_var,
      afterByte_bu_toNat b h.room, add_div_of_mod _ _ _ (blockBytes_pos s.var), List.length_cons, Nat.add_assoc,
      Nat.add_comm 1]

/-- Settles O17: each ABSORB moves BU and TL on by one and compresses when BU passes the block's end. -/
theorem absorbCountingLaw : Obligations.AbsorbCountingLaw := by
  refine ⟨fun bytes s hs hbu => ?_, fun bytes bytes' s s' hlen hs hs' hvar hbu hroom => ?_⟩
  · have h : Absorbing s := ⟨hs, hbu⟩
    refine ⟨absorbAll bytes s, h.execAll_updateCmds bytes, (h.absorbAll bytes).phase,
      h.totalCompressions_updateCmds bytes, h.absorbAll_bu bytes, absorbAll_tl bytes s, ?_⟩
    rintro rfl
    rfl
  · have h : Absorbing s := ⟨hs, hroom⟩
    have h' : Absorbing s' := ⟨hs', by rwa [← hvar, ← hbu]⟩
    rw [h.totalCompressions_updateCmds, h'.totalCompressions_updateCmds, hlen, hvar, hbu]

/-- The stream of a span: the buffer's bytes and the span as whole blocks, which go into H, and a rest, which stays. -/
theorem Absorbing.absorbAll_stream {s : State} (h : Absorbing s) (hw : Memory.wf s.blk) (bytes : List Byte) :
    (Machine.absorbAll bytes s).h = chainOver s.var s.h (wholeBlocks s.var (bufferTail s ++ bytes)) ∧
      bufferTail (Machine.absorbAll bytes s) = partialBlock s.var (bufferTail s ++ bytes) := by
  induction bytes generalizing s with
  | nil =>
    have hlt : (bufferTail s).length < (rom s.var).blockBytes := (bufferTail_length s).trans_lt h.room
    rw [List.append_nil, wholeBlocks_of_lt hlt, partialBlock_of_lt hlt]
    exact ⟨rfl, rfl⟩
  | cons b bytes ih =>
    obtain ⟨hh, htail⟩ := afterByte_stream hw h.room b
    obtain ⟨ihh, ihtail⟩ := ih (h.afterByte b) (absorbAll_wf hw h [b])
    obtain ⟨hblocks, hrest⟩ := blocks_append s.var (bufferTail s ++ [b]) bytes
    rw [absorbAll_cons, ihh, ihtail, hh, htail, afterByte_var, List.append_cons _ b bytes, hblocks, hrest, chainOver_append]
    exact ⟨rfl, rfl⟩

theorem absorbing_freshContext (v : Variant) (s : State) : Absorbing (freshContext v s) := ⟨rfl, blockBytes_pos v⟩

theorem execAll_init_updateCmds (v : Variant) (msg : List Byte) {s : State} (hs : s.phase ≠ .faulted) :
    execAll (.init (variantCode v) :: updateCmds msg) s = .next (absorbAll msg (freshContext v s)) :=
  (execAll_cons (exec_init_of_variant v hs)).trans ((absorbing_freshContext v s).execAll_updateCmds msg)

/-- A fresh context's stream is the message itself. -/
theorem absorbAll_freshContext_stream (v : Variant) (msg : List Byte) (s : State) :
    (absorbAll msg (freshContext v s)).h = chainOver v (initialChain v) (wholeBlocks v msg) ∧
      bufferTail (absorbAll msg (freshContext v s)) = partialBlock v msg :=
  (absorbing_freshContext v s).absorbAll_stream cleared_wf msg

theorem absorbAll_freshContext_bu (v : Variant) (msg : List Byte) (s : State) :
    (absorbAll msg (freshContext v s)).bu.toNat = msg.length % (rom v).blockBytes := by
  have h := (absorbing_freshContext v s).absorbAll_bu msg
  simpa using h

theorem absorbAll_freshContext_tl (v : Variant) (msg : List Byte) (s : State) :
    (absorbAll msg (freshContext v s)).tl.toNat = msg.length % 2 ^ (rom v).lenBits := by
  obtain rfl | hne := eq_or_ne msg []
  · exact (Nat.zero_mod _).symm
  · have h := absorbAll_tl msg (freshContext v s) hne
    simpa using h

/-- Settles O18: a fresh context has no bytes in its buffer, so the message is the whole stream. -/
theorem absorbedMessageState : Obligations.AbsorbedMessageState := fun v msg s hs hlen => by
  obtain ⟨hh, htail⟩ := absorbAll_freshContext_stream v msg s
  refine ⟨_, execAll_init_updateCmds v msg hs, ((absorbing_freshContext v s).absorbAll msg).phase,
    absorbAll_var msg _, ?_, absorbAll_freshContext_bu v msg s, htail, hh⟩
  rw [absorbAll_freshContext_tl, Nat.mod_eq_of_lt hlen]

/- ### The source's span loop -/

/-- The end of ABSORB and of a round of `update`: a full block is compressed and BU is 0. -/
def closeBlock (s : State) : State :=
  if s.bu.toNat = (rom s.var).blockBytes then { compressBlock (wholeBlock s) s with bu := 0 } else s

/-- A round of `update` before its block is closed: the bytes that fit, copied and counted (R710). -/
def copySpan (chunk : List Byte) (s : State) : State :=
  { s with
    blk := writeBytes s.bu.toNat chunk s.blk
    bu := s.bu + BitVec.ofNat 8 chunk.length
    tl := BitVec.ofNat 128 ((s.tl.toNat + chunk.length) % 2 ^ (rom s.var).lenBits) }

theorem afterByte_eq_closeBlock (b : Byte) (s : State) : afterByte b s = closeBlock (copySpan [b] s) := rfl

/-- A byte in front of a chunk, while the block does not fill with it: copying both is ABSORB of the byte and copying the
chunk. -/
theorem copySpan_cons (b : Byte) (chunk : List Byte) {s : State} (hlt : s.bu.toNat + 1 < (rom s.var).blockBytes) :
    copySpan (b :: chunk) s = copySpan chunk (afterByte b s) := by
  obtain ⟨hnext, hsucc, -⟩ := afterByte_bu_of_lt b hlt
  have hbyte : afterByte b s = copySpan [b] s := by
    rw [afterByte_eq_closeBlock, closeBlock]
    exact if_neg (hsucc ▸ hlt.ne)
  have hbu : s.bu + BitVec.ofNat 8 (chunk.length + 1) = s.bu + 1 + BitVec.ofNat 8 chunk.length := by
    rw [Nat.add_comm, BitVec.ofNat_add, BitVec.add_assoc]
    rfl
  have htl : (s.tl.toNat + (chunk.length + 1)) % 2 ^ (rom s.var).lenBits =
      ((countByte s.var s.tl).toNat + chunk.length) % 2 ^ (rom s.var).lenBits := by
    rw [countByte_toNat, Nat.mod_add_mod, Nat.add_assoc, Nat.add_comm 1]
  have hblk : writeBytes s.bu.toNat (b :: chunk) s.blk =
      writeBytes (s.bu + 1).toNat chunk (writeByte s.bu.toNat b s.blk) := by
    rw [hsucc, writeBytes]
  rw [hbyte]
  simp only [copySpan, List.length_cons, hbu, htl, hblk]
  rfl

theorem closeBlock_copySpan {chunk : List Byte} {s : State} (h : Absorbing s) (hne : chunk ≠ [])
    (hfit : s.bu.toNat + chunk.length ≤ (rom s.var).blockBytes) :
    closeBlock (copySpan chunk s) = absorbAll chunk s := by
  induction chunk generalizing s with
  | nil => exact absurd rfl hne
  | cons b chunk ih =>
    obtain rfl | hne' := eq_or_ne chunk []
    · exact (afterByte_eq_closeBlock b s).symm
    · have hpos := List.length_pos_iff.mpr hne'
      rw [List.length_cons] at hfit
      have hlt : s.bu.toNat + 1 < (rom s.var).blockBytes := by omega
      obtain ⟨hnext, hsucc, -⟩ := afterByte_bu_of_lt b hlt
      rw [copySpan_cons b chunk hlt, absorbAll_cons]
      exact ih (h.afterByte b) hne' (by rw [hnext, hsucc, afterByte_var]; omega)

/-- One round of `update` on a span that is not empty. -/
theorem updateSpan_round {fuel : Nat} {bytes : List Byte} {s : State} (hbu : s.bu.toNat < (rom s.var).blockBytes)
    (hne : bytes ≠ []) :
    let n := min ((rom s.var).blockBytes - s.bu.toNat) bytes.length
    updateSpan (fuel + 1) bytes s = updateSpan fuel (bytes.drop n) (closeBlock (copySpan (bytes.take n) s)) := by
  intro n
  have hB := blockBytes_le s.var
  have hlen : (bytes.take n).length = n := List.length_take_of_le (Nat.min_le_right _ _)
  have hwrite : memWrite s.bu.toNat (bytes.take n) s.blk = .ok (writeBytes s.bu.toNat (bytes.take n) s.blk) :=
    memWrite_ok (by rw [hlen]; omega)
  obtain ⟨b, tail, rfl⟩ := List.exists_cons_of_ne_nil hne
  simp only [updateSpan, compressIfFull_eq, bind, Except.bind]
  rw [hwrite, copySpan, hlen]
  rfl

/-- `update` on any span, with fuel for a round per byte, is one ABSORB per byte. -/
theorem Absorbing.updateSpan_eq {s : State} (h : Absorbing s) {fuel : Nat} {bytes : List Byte}
    (hfuel : bytes.length ≤ fuel) : updateSpan fuel bytes s = .ok (Machine.absorbAll bytes s) := by
  induction fuel generalizing bytes s with
  | zero =>
    obtain rfl := List.length_eq_zero_iff.mp (Nat.le_zero.mp hfuel)
    rfl
  | succ fuel ih =>
    obtain rfl | hne := eq_or_ne bytes []
    · rfl
    · have hpos := List.length_pos_iff.mpr hne
      have hroom := h.room
      set n := min ((rom s.var).blockBytes - s.bu.toNat) bytes.length with hn
      have hlen : (bytes.take n).length = n := List.length_take_of_le (Nat.min_le_right _ _)
      have hchunk : closeBlock (copySpan (bytes.take n) s) = Machine.absorbAll (bytes.take n) s :=
        closeBlock_copySpan h (List.ne_nil_of_length_pos (by omega)) (by omega)
      rw [updateSpan_round hroom hne, hchunk, ih (h.absorbAll _) (by rw [List.length_drop]; omega), ← absorbAll_append,
        List.take_append_drop]

/-- Settles O19: a round of the loop is the ABSORBs of the bytes it copies, for the block fills with the last of them at
the earliest. -/
theorem spanUpdateIsAbsorbSequence : Obligations.SpanUpdateIsAbsorbSequence := fun bytes s hs hbu => by
  have h : Absorbing s := ⟨hs, hbu⟩
  rw [h.updateSpan_eq (Nat.le_refl _), h.execAll_updateCmds, finish]

theorem Absorbing.foldlM_updateSpan {s : State} (h : Absorbing s) (spans : List (List Byte)) :
    spans.foldlM (fun u span => updateSpan span.length span u) s = .ok (Machine.absorbAll spans.flatten s) := by
  induction spans generalizing s with
  | nil => rfl
  | cons span spans ih =>
    rw [List.foldlM_cons, h.updateSpan_eq (Nat.le_refl _), List.flatten_cons, absorbAll_append]
    exact ih (h.absorbAll span)

/-- Settles O20: span by span or whole, the bytes are absorbed one by one in the same order. -/
theorem chunkIndependence : Obligations.ChunkIndependence := fun spans s hs hbu => by
  have h : Absorbing s := ⟨hs, hbu⟩
  exact ⟨_, h.execAll_updateCmds spans.flatten, h.foldlM_updateSpan spans⟩

end Sys2Proof.Machine
end

section
/-! SUPPORT. FINAL as the end of the byte stream, the compressions of each command, the RDBYTEs of DIGEST, and a complete
hash (`44_finalize.md` R801 to R803, `45_digest.md` R902, `46_facade.md` R1006, `70_reset_and_hazards.md` R1221). -/

namespace Sys2Proof.Machine

/- ### The blocks that FINAL compresses -/

theorem firstBytes_of_le (m : Memory) {a n : Nat} (h : a ≤ n) : firstBytes m a = (firstBytes m n).take a := by
  rw [firstBytes, firstBytes, ← List.map_take, List.take_range, Nat.min_eq_left h]

theorem needsExtraBlock_eq_false_iff (v : Variant) (u : Nat) :
    needsExtraBlock v u = false ↔ ¬(rom v).blockBytes - u - 1 < (rom v).lenBytes := by
  rw [← needsExtraBlock_iff, Bool.not_eq_true]

@[simp] theorem markedState_var (s : State) : (markedState s).var = s.var := rfl

/-- The block of the extra compression: the buffer's bytes, the marker and the zero fill (R801 step 1). -/
theorem wholeBlock_markedState_eq_append {s : State} (hw : Memory.wf s.blk)
    (hbu : s.bu.toNat < (rom s.var).blockBytes) : wholeBlock (markedState s) =
      bufferTail s ++ [0x80] ++ List.replicate ((rom s.var).blockBytes - (s.bu.toNat + 1)) 0 := by
  have hB := blockBytes_le s.var
  have hmarker : firstBytes (writeByte s.bu.toNat 0x80 s.blk) (s.bu.toNat + 1) = bufferTail s ++ [0x80] :=
    firstBytes_writeBytes (bytes := [0x80]) hw (hbu.trans_le hB)
  have hfill := firstBytes_writeBytes (i := s.bu.toNat + 1)
    (bytes := List.replicate ((rom s.var).blockBytes - (s.bu.toNat + 1)) 0)
    (writeByte_wf (b := 0x80) hw (hbu.trans_le hB)) (by rw [List.length_replicate]; omega)
  rwa [List.length_replicate, Nat.add_sub_of_le hbu, hmarker] at hfill

/-- The length field takes the place of the last bytes of a block (R801 step 3). -/
theorem firstBytes_write_lengthField {m : Memory} (hw : Memory.wf m) (v : Variant) (tl : BitVec 128) :
    firstBytes (writeBytes ((rom v).blockBytes - (rom v).lenBytes) (lengthField v tl) m) (rom v).blockBytes =
      (firstBytes m (rom v).blockBytes).take ((rom v).blockBytes - (rom v).lenBytes) ++ lengthField v tl := by
  have hB := blockBytes_le v
  have hL := lenBytes_lt v
  have hend : (rom v).blockBytes - (rom v).lenBytes + (rom v).lenBytes = (rom v).blockBytes := by omega
  have h := firstBytes_writeBytes (i := (rom v).blockBytes - (rom v).lenBytes) (bytes := lengthField v tl) hw
    (by rw [lengthField_length]; omega)
  rw [lengthField_length, hend] at h
  rw [h, firstBytes_of_le m (Nat.sub_le _ _)]

/-- The block of the last compression when the length field fits behind the marker. -/
theorem wholeBlock_afterFinal_of_fits {s : State} (hw : Memory.wf s.blk) (hbu : s.bu.toNat < (rom s.var).blockBytes)
    (hx : needsExtraBlock s.var s.bu.toNat = false) :
    wholeBlock (afterFinal s) = bufferTail s ++ padding s.var s.bu.toNat s.tl := by
  have hfits := (needsExtraBlock_eq_false_iff s.var s.bu.toNat).mp hx
  have hpadded : paddedBuffer s = writeBytes ((rom s.var).blockBytes - (rom s.var).lenBytes)
      (lengthField s.var s.tl) (markedState s).blk := by
    rw [paddedBuffer, hx]; rfl
  have hmarked := wholeBlock_markedState_eq_append hw hbu
  have hroom : (rom s.var).blockBytes - (rom s.var).lenBytes =
      (bufferTail s ++ [0x80]).length + ((rom s.var).blockBytes - s.bu.toNat - 1 - (rom s.var).lenBytes) := by
    rw [List.length_append, bufferTail_length, List.length_singleton]; omega
  have hzeros : (rom s.var).blockBytes - s.bu.toNat - 1 - (rom s.var).lenBytes ≤
      (rom s.var).blockBytes - (s.bu.toNat + 1) := by omega
  rw [wholeBlock_eq, markedState_var] at hmarked
  rw [wholeBlock_eq, afterFinal_blk, afterFinal_var, hpadded, firstBytes_write_lengthField (markedState_wf hw hbu),
    hmarked, hroom, List.take_length_add_append, List.take_replicate, Nat.min_eq_left hzeros]
  simp [padding, hx]

/-- The block of the last compression when it does not: zeros and the length field (R801 steps 2 and 3). -/
theorem wholeBlock_afterFinal_of_extra {s : State} (hw : Memory.wf s.blk) (hbu : s.bu.toNat < (rom s.var).blockBytes)
    (hx : needsExtraBlock s.var s.bu.toNat = true) : wholeBlock (afterFinal s) =
      List.replicate ((rom s.var).blockBytes - (rom s.var).lenBytes) 0 ++ lengthField s.var s.tl := by
  have hB := blockBytes_le s.var
  have hpadded : paddedBuffer s = writeBytes ((rom s.var).blockBytes - (rom s.var).lenBytes) (lengthField s.var s.tl)
      (writeBytes 0 (List.replicate (rom s.var).blockBytes 0) (markedState s).blk) := by
    rw [paddedBuffer, hx]; rfl
  have hbound : 0 + (List.replicate (rom s.var).blockBytes (0 : Byte)).length ≤ Config.bufferBytes := by simpa using hB
  have hzeros := firstBytes_writeBytes (markedState_wf hw hbu) hbound
  rw [List.length_replicate, Nat.zero_add] at hzeros
  rw [wholeBlock_eq, afterFinal_blk, afterFinal_var, hpadded,
    firstBytes_write_lengthField (writeBytes_wf (markedState_wf hw hbu) hbound), hzeros]
  simp [firstBytes]

/-- FINAL appends the padding to the buffer's bytes; the stream's whole blocks go into H, and no byte is left. -/
theorem afterFinal_h_stream {s : State} (hw : Memory.wf s.blk) (hbu : s.bu.toNat < (rom s.var).blockBytes) :
    (afterFinal s).h =
      chainOver s.var s.h (wholeBlocks s.var (bufferTail s ++ padding s.var s.bu.toNat s.tl)) := by
  have hlast : (wholeBlock (afterFinal s)).length = (rom s.var).blockBytes := wholeBlock_length (afterFinal s)
  cases hx : needsExtraBlock s.var s.bu.toNat with
  | false =>
    have hblock := wholeBlock_afterFinal_of_fits hw hbu hx
    have hfits := (needsExtraBlock_eq_false_iff s.var s.bu.toNat).mp hx
    rw [afterFinal_h_of_fits hfits, ← hblock, wholeBlocks_block hlast]
    rfl
  | true =>
    have hL := lenBytes_lt s.var
    have hmarked : (wholeBlock (markedState s)).length = (rom s.var).blockBytes := wholeBlock_length (markedState s)
    have hextra := (needsExtraBlock_iff s.var s.bu.toNat).mp hx
    have hcut : 2 * (rom s.var).blockBytes - s.bu.toNat - 1 - (rom s.var).lenBytes =
        (rom s.var).blockBytes - (s.bu.toNat + 1) + ((rom s.var).blockBytes - (rom s.var).lenBytes) := by omega
    have hstream : bufferTail s ++ padding s.var s.bu.toNat s.tl =
        wholeBlock (markedState s) ++ wholeBlock (afterFinal s) := by
      rw [wholeBlock_markedState_eq_append hw hbu, wholeBlock_afterFinal_of_extra hw hbu hx, padding, hx, if_pos rfl,
        hcut, List.replicate_add]
      simp only [List.append_assoc]
    rw [afterFinal_h_of_extra hextra, hstream, wholeBlocks_block_append hmarked, wholeBlocks_block hlast]
    rfl

/- ### The compressions of FINAL -/

/-- The padding fills the last block, or that block and one more. -/
theorem add_padding_length {v : Variant} {u : Nat} (tl : BitVec 128) (hu : u < (rom v).blockBytes) :
    u + (padding v u tl).length = (rom v).blockBytes * if needsExtraBlock v u then 2 else 1 := by
  have hL := lenBytes_lt v
  simp only [padding, List.length_append, List.length_singleton, List.length_replicate, lengthField_length]
  split_ifs with hx
  · omega
  · rw [needsExtraBlock_iff] at hx
    omega

theorem compressions_final_of_absorbing {s : State} (hs : s.phase = .absorbing) :
    compressions .final s = if needsExtraBlock s.var s.bu.toNat then 2 else 1 := by
  simp only [compressions, hs]

theorem compressedBlocks_final_of_absorbing {s : State} (hs : s.phase = .absorbing) :
    compressedBlocks .final s = wholeBlocks s.var (bufferTail s ++ padding s.var s.bu.toNat s.tl) := by
  simp only [compressedBlocks, hs]

theorem length_compressedBlocks_final {s : State} (hs : s.phase = .absorbing)
    (hbu : s.bu.toNat < (rom s.var).blockBytes) : (compressedBlocks .final s).length = compressions .final s := by
  rw [compressedBlocks_final_of_absorbing hs, compressions_final_of_absorbing hs, wholeBlocks_length, List.length_append,
    bufferTail_length, add_padding_length s.tl hbu, Nat.mul_div_cancel_left _ (blockBytes_pos s.var)]

theorem compressions_final_eq_two_iff {s : State} (hs : s.phase = .absorbing) :
    compressions .final s = 2 ↔ (rom s.var).blockBytes - s.bu.toNat - 1 < (rom s.var).lenBytes := by
  rw [compressions_final_of_absorbing hs, ← needsExtraBlock_iff]
  split_ifs with hx <;> simp [hx]

/-- The room that an extra block is taken for: 8 bytes of 64, or 16 bytes of 128 (`10_state.md` R120). -/
theorem rom_blockBytes_lenBytes (v : Variant) :
    ((v = .sha224 ∨ v = .sha256) → (rom v).blockBytes = 64 ∧ (rom v).lenBytes = 8) ∧
    ((v = .sha384 ∨ v = .sha512 ∨ v = .sha512_256) → (rom v).blockBytes = 128 ∧ (rom v).lenBytes = 16) := by
  cases v <;> decide

/-- Settles O22: the condition of the rule, at the two sizes of a block and of its length field. -/
theorem extraBlockCondition : Obligations.ExtraBlockCondition := fun s hs hbu => by
  obtain ⟨hsmall, hlarge⟩ := rom_blockBytes_lenBytes s.var
  refine ⟨?_, length_compressedBlocks_final hs hbu, fun hv => ?_, fun hv => ?_⟩
  · simp only [compressions_final_of_absorbing hs, needsExtraBlock_iff]
  · obtain ⟨hB, hL⟩ := hsmall hv
    rw [compressions_final_eq_two_iff hs, hB, hL]
    omega
  · obtain ⟨hB, hL⟩ := hlarge hv
    rw [compressions_final_eq_two_iff hs, hB, hL]
    rw [hB] at hbu
    omega

/-- An empty buffer has room for the length field. -/
theorem needsExtraBlock_zero (v : Variant) : needsExtraBlock v 0 = false := by
  have hL := lenBytes_lt v
  rw [needsExtraBlock_eq_false_iff]
  omega

/-- Settles O23: the buffer is empty, so the padding alone is FINAL's one block. -/
theorem exactBlockMessage : Obligations.ExactBlockMessage := fun b s hs hfull hw => by
  have hroom : s.bu.toNat < (rom s.var).blockBytes := hfull ▸ Nat.lt_succ_self _
  have h : Absorbing s := ⟨hs, hroom⟩
  obtain ⟨hzero, -⟩ := afterByte_of_full b hfull
  obtain ⟨hphase, hroom'⟩ := h.afterByte b
  have hw' : Memory.wf (afterByte b s).blk := absorbAll_wf hw h [b]
  have hx := needsExtraBlock_zero s.var
  have hbu : (afterByte b s).bu.toNat = 0 := by rw [hzero]; rfl
  have hlen : (padding s.var 0 (afterByte b s).tl).length = (rom s.var).blockBytes := by
    have hl := add_padding_length (v := s.var) (afterByte b s).tl (blockBytes_pos s.var)
    simpa [hx] using hl
  refine ⟨_, _, h.exec_absorb b, hzero, ?_, exec_final_of_bu_lt hphase hroom', ?_⟩
  · rw [compressions_final_of_absorbing hphase, hbu, needsExtraBlock_zero]
    rfl
  · rw [afterFinal_h_stream hw' hroom', bufferTail_of_bu_zero hzero, hbu, afterByte_var,
      List.nil_append, wholeBlocks_block hlen, padding, hx]
    rfl

/- ### The compressions of each command -/

/-- The commands that compress: ABSORB and FINAL in ABSORBING (`70_reset_and_hazards.md` R1221). -/
def Compresses (i : Instr) (s : State) : Prop := s.phase = .absorbing ∧ ((∃ b, i = .absorb b) ∨ i = .final)

theorem compressions_of_not_compresses {i : Instr} {s : State} (h : ¬Compresses i s) :
    compressions i s = 0 ∧ compressedBlocks i s = [] := by
  cases i with
  | absorb b =>
    have hs : s.phase ≠ .absorbing := fun hs => h ⟨hs, .inl ⟨b, rfl⟩⟩
    cases hp : s.phase with
    | absorbing => exact absurd hp hs
    | unconfigured | finalized | faulted => simp only [compressions, compressedBlocks, hp, and_self]
  | final =>
    have hs : s.phase ≠ .absorbing := fun hs => h ⟨hs, .inr rfl⟩
    cases hp : s.phase with
    | absorbing => exact absurd hp hs
    | unconfigured | finalized | faulted => simp only [compressions, compressedBlocks, hp, and_self]
  | init | rdbyte | size | rdstat => exact ⟨rfl, rfl⟩

/-- Only INIT and the commands that compress write H (`10_state.md` R130). -/
theorem ExecResult.h_eq {i : Instr} {s t : State} (hr : ExecResult i s t) (hinit : ∀ var, i ≠ .init var)
    (h : ¬Compresses i s) : t.h = s.h := by
  cases hr with
  | same | fault | rdbyte | size | rdstat => rfl
  | init v hi => exact absurd hi (hinit _)
  | absorb b hi hs => exact absurd ⟨hs, .inl ⟨b, hi⟩⟩ h
  | final hi hs => exact absurd ⟨hs, .inr hi⟩ h

/-- The count as a function of what R1222 lets it depend on: the opcode, PHASE, VAR and BU. -/
theorem compressions_eq (i : Instr) (s : State) : compressions i s =
    if s.phase = .absorbing then
      if opcodeOf i = 0x2 then (if s.bu.toNat + 1 = (rom s.var).blockBytes then 1 else 0)
      else if opcodeOf i = 0x3 then (if needsExtraBlock s.var s.bu.toNat then 2 else 1)
      else 0
    else 0 := by
  by_cases hs : s.phase = .absorbing
  · rw [if_pos hs]
    cases i with
    | absorb | final => simp only [compressions, hs]; rfl
    | init | rdbyte | size | rdstat => rfl
  · obtain ⟨hzero, -⟩ := compressions_of_not_compresses (i := i) (mt And.left hs)
    rw [hzero, if_neg hs]

theorem compressions_absorb_le (b : Byte) (s : State) : compressions (.absorb b) s ≤ 1 := by
  have hop : opcodeOf (.absorb b) = 0x2 := rfl
  rw [compressions_eq, if_pos hop]
  split_ifs <;> decide

theorem compressions_final_le (s : State) : compressions .final s ≤ 2 := by
  rw [compressions_eq, opcodeOf]
  split_ifs <;> decide

theorem one_le_compressions_final {s : State} (hs : s.phase = .absorbing) : 1 ≤ compressions .final s := by
  rw [compressions_final_of_absorbing hs]
  split_ifs <;> decide

theorem compressedBlocks_absorb_of_absorbing (b : Byte) {s : State} (hs : s.phase = .absorbing) :
    compressedBlocks (.absorb b) s = wholeBlocks s.var (bufferTail s ++ [b]) := by
  simp only [compressedBlocks, hs]

theorem length_compressedBlocks_absorb (b : Byte) {s : State} (hs : s.phase = .absorbing)
    (hbu : s.bu.toNat < (rom s.var).blockBytes) :
    (compressedBlocks (.absorb b) s).length = compressions (.absorb b) s := by
  rw [compressedBlocks_absorb_of_absorbing b hs, compressions_absorb_of_absorbing b hs hbu, wholeBlocks_length,
    List.length_append, bufferTail_length, List.length_singleton]

/-- The blocks a command compresses, counted and chained, are the machine's: they lead from H to the next H. -/
theorem compressedBlocks_spec {i : Instr} {s t : State} (h : s.Inv) (hinit : ∀ var, i ≠ .init var)
    (ht : exec i s = .next t) :
    t.h = chainOver s.var s.h (compressedBlocks i s) ∧ (compressedBlocks i s).length = compressions i s ∧
      ∀ blk ∈ compressedBlocks i s, blk.length = (rom s.var).blockBytes := by
  have hw := h.bufferCanonical
  have hbu := h.fillBelowBlock
  by_cases hc : Compresses i s
  · obtain ⟨hs, ⟨b, rfl⟩ | rfl⟩ := hc
    · cases ht.symm.trans (exec_absorb_of_bu_lt b hs hbu)
      obtain ⟨hh, -⟩ := afterByte_stream hw hbu b
      refine ⟨?_, length_compressedBlocks_absorb b hs hbu, fun blk hblk => ?_⟩
      · rw [hh, compressedBlocks_absorb_of_absorbing b hs]
      · rw [compressedBlocks_absorb_of_absorbing b hs] at hblk
        exact length_of_mem_wholeBlocks hblk
    · cases ht.symm.trans (exec_final_of_bu_lt hs hbu)
      refine ⟨?_, length_compressedBlocks_final hs hbu, fun blk hblk => ?_⟩
      · rw [afterFinal_h_stream hw hbu, compressedBlocks_final_of_absorbing hs]
      · rw [compressedBlocks_final_of_absorbing hs] at hblk
        exact length_of_mem_wholeBlocks hblk
  · obtain ⟨hcount, hblocks⟩ := compressions_of_not_compresses hc
    rw [hcount, hblocks, (exec_cases ht).h_eq hinit hc]
    exact ⟨rfl, rfl, nofun⟩

/-- Settles O49: ABSORB and FINAL compress the whole blocks of the buffer's bytes with the byte or the padding behind
them; no other command compresses, and none but INIT writes H otherwise. -/
theorem compressionsPerCommand : Obligations.CompressionsPerCommand := by
  refine ⟨compressions_absorb_le, fun s => ⟨compressions_final_le s, one_le_compressions_final⟩, fun i s hi => ?_,
    fun i s t h hinit ht => compressedBlocks_spec h hinit ht⟩
  obtain ⟨v, rfl⟩ | ⟨k, rfl⟩ | rfl | rfl := hi <;> rfl

/-- Settles O50: the duration reads the opcode, PHASE, VAR and the count, which depends on these and BU. -/
theorem latencyDataIndependent : Obligations.LatencyDataIndependent := fun i j s t hop hphase hvar hbu => by
  rw [latency, latency, compressions_eq, compressions_eq, hop, hphase, hvar, hbu]

/- ### The RDBYTEs of DIGEST -/

/-- A byte in RES is read back from RES[7:0]. -/
theorem setWidth_setWidth_byte (b : Byte) : (b.setWidth 128).setWidth 8 = b := by
  rw [BitVec.setWidth_setWidth_of_le b (by decide), BitVec.setWidth_eq]

theorem rom_dl_le (v : Variant) : (rom v).dl ≤ 64 := by cases v <;> decide

theorem exec_rdbyte_index {s : State} {k : Nat} (hs : s.phase = .finalized) (hk : k < (rom s.var).dl) :
    exec (.rdbyte (BitVec.ofNat 8 k)) s = .next { s with res := ((digest s).getD k 0).setWidth 128 } := by
  have hdl := rom_dl_le s.var
  have hindex : (BitVec.ofNat 8 k).toNat = k := Nat.mod_eq_of_lt (by omega)
  rw [exec_rdbyte_of_finalized hs (hindex.symm ▸ hk), hindex, writeRes_digestByte hk]

/-- RDBYTEs of indices below P.dl read the digest's bytes at these indices and write RES alone. -/
theorem readAll_rdbytes {ks : List Nat} {s : State} (hs : s.phase = .finalized) (hks : ∀ k ∈ ks, k < (rom s.var).dl) :
    ∃ r, readAll (ks.map fun k => .rdbyte (BitVec.ofNat 8 k)) s =
      some (ks.map fun k => (digest s).getD k 0, { s with res := r }) := by
  induction ks generalizing s with
  | nil => exact ⟨s.res, rfl⟩
  | cons k ks ih =>
    obtain ⟨hk, hks⟩ := List.forall_mem_cons.mp hks
    obtain ⟨r, hr⟩ := ih (s := { s with res := ((digest s).getD k 0).setWidth 128 }) hs hks
    refine ⟨r, ?_⟩
    rw [List.map_cons, readAll, exec_rdbyte_index hs hk]
    simp only [hr, Option.map_some, setWidth_setWidth_byte]
    rfl

theorem digest_length (s : State) : (digest s).length = (rom s.var).dl :=
  (digestOf_length s.var s.h).trans (rom_dl_eq s.var).symm

theorem readAll_digestCmds {s : State} (hs : s.phase = .finalized) :
    ∃ r, readAll (digestCmds s.var) s = some (digest s, { s with res := r }) := by
  obtain ⟨r, hr⟩ := readAll_rdbytes hs fun k => List.mem_range.mp
  have hbytes : (List.range (rom s.var).dl).map (fun k => (digest s).getD k 0) = digest s := by
    have hall := take_drop_eq_map_getD (digest s) 0 (a := 0) (n := (rom s.var).dl) (by rw [digest_length, Nat.zero_add])
    simpa [← digest_length] using hall.symm
  rw [hbytes] at hr
  exact ⟨r, hr⟩

theorem digestCmds_length (v : Variant) : (digestCmds v).length = (rom v).dl := by
  rw [digestCmds, List.length_map, List.length_range]

/-- Settles O28: the indices 0 to P.dl - 1 read the digest's bytes in order. -/
theorem digestCommandsDeliverDigest : Obligations.DigestCommandsDeliverDigest := fun s hs => by
  obtain ⟨r, hr⟩ := readAll_digestCmds hs
  exact ⟨⟨_, hr, rfl⟩, digestCmds_length s.var, digest_length s, fun k hk => exec_rdbyte_of_out_of_range hs hk⟩

/- ### A complete hash -/

/-- The context after INIT and the bytes of a message. -/
theorem execAll_message (v : Variant) (msg : List Byte) {s : State} (hs : s.phase ≠ .faulted) :
    execAll ([.init (variantCode v)] ++ updateCmds msg) s = .next (absorbAll msg (freshContext v s)) :=
  execAll_init_updateCmds v msg hs

theorem absorbing_message (v : Variant) (msg : List Byte) (s : State) : Absorbing (absorbAll msg (freshContext v s)) :=
  (absorbing_freshContext v s).absorbAll msg

theorem absorbAll_freshContext_var (v : Variant) (msg : List Byte) (s : State) :
    (absorbAll msg (freshContext v s)).var = v :=
  absorbAll_var msg _

theorem execAll_through_final (v : Variant) (msg : List Byte) {s : State} (hs : s.phase ≠ .faulted) :
    execAll ([.init (variantCode v)] ++ updateCmds msg ++ [.final]) s =
      .next (afterFinal (absorbAll msg (freshContext v s))) := by
  obtain ⟨hphase, hroom⟩ := absorbing_message v msg s
  rw [execAll_append (execAll_message v msg hs), execAll_cons (exec_final_of_bu_lt hphase hroom), execAll]

/-- The digest that FINAL leaves is the hash of the message: its whole blocks are in H already, and those of its rest with
the padding follow. -/
theorem digest_afterFinal_message (v : Variant) (msg : List Byte) (s : State) :
    digest (afterFinal (absorbAll msg (freshContext v s))) = sha2 v msg := by
  obtain ⟨-, hroom⟩ := absorbing_message v msg s
  obtain ⟨hh, htail⟩ := absorbAll_freshContext_stream v msg s
  have hwf := absorbAll_wf cleared_wf (absorbing_freshContext v s) msg
  have htl : BitVec.ofNat 128 (msg.length % 2 ^ (rom v).lenBits) = (absorbAll msg (freshContext v s)).tl := by
    rw [← absorbAll_freshContext_tl v msg s, BitVec.ofNat_toNat, BitVec.setWidth_eq]
  simp only [digest, sha2, afterFinal_var, absorbAll_freshContext_var, htl]
  rw [afterFinal_h_stream hwf hroom, absorbAll_freshContext_var, hh, htail, absorbAll_freshContext_bu,
    wholeBlocks_append v msg, chainOver_append]

/-- Settles O52: FINAL leaves the hash as the digest, and DIGEST reads the digest. -/
theorem commandsComputeHash : Obligations.CommandsComputeHash := fun v msg s hs => by
  have hdigest := digest_afterFinal_message v msg s
  obtain ⟨r, hr⟩ := readAll_digestCmds (afterFinal_phase (absorbAll msg (freshContext v s)))
  have hlen := digest_length (afterFinal (absorbAll msg (freshContext v s)))
  rw [hdigest, afterFinal_var, absorbAll_freshContext_var] at hr hlen
  exact ⟨_, _, execAll_through_final v msg hs, rfl, hr, hlen⟩

/- ### The compressions of a complete hash -/

theorem totalCompressions_cons {i : Instr} {cmds : List Instr} {s t : State} (h : exec i s = .next t) :
    totalCompressions (i :: cmds) s = compressions i s + totalCompressions cmds t := by
  rw [totalCompressions, h]

theorem totalCompressions_append {cmds cmds' : List Instr} {s t : State} (h : execAll cmds s = .next t) :
    totalCompressions (cmds ++ cmds') s = totalCompressions cmds s + totalCompressions cmds' t := by
  induction cmds generalizing s with
  | nil => cases h; exact (Nat.zero_add _).symm
  | cons i cmds ih =>
    cases hi : exec i s with
    | next u =>
      rw [execAll_cons hi] at h
      rw [List.cons_append, totalCompressions_cons hi, totalCompressions_cons hi, ih h, Nat.add_assoc]
    | fault f => rw [execAll, hi] at h; cases h
    | refused r => rw [execAll, hi] at h; cases h

/-- Reading the digest compresses nothing, whatever becomes of the RDBYTEs. -/
theorem totalCompressions_rdbytes (ks : List (BitVec 8)) (s : State) : totalCompressions (ks.map .rdbyte) s = 0 := by
  induction ks generalizing s with
  | nil => rfl
  | cons k ks ih =>
    rw [List.map_cons, totalCompressions]
    split
    · rw [ih]; rfl
    · rfl
    · rfl

theorem totalCompressions_digestCmds (v : Variant) (s : State) : totalCompressions (digestCmds v) s = 0 := by
  have hmap : digestCmds v = ((List.range (rom v).dl).map (BitVec.ofNat 8)).map .rdbyte := by
    rw [List.map_map]; rfl
  rw [hmap, totalCompressions_rdbytes]

theorem needsExtraBlock_iff_le {v : Variant} {u : Nat} (hu : u < (rom v).blockBytes) :
    needsExtraBlock v u = true ↔ (rom v).blockBytes - (rom v).lenBytes ≤ u := by
  rw [needsExtraBlock_iff]
  omega

theorem totalCompressions_hashCmds (v : Variant) (msg : List Byte) {s : State} (hs : s.phase ≠ .faulted) :
    totalCompressions (hashCmds v msg) s = msg.length / (rom v).blockBytes + 1 +
      if (rom v).blockBytes - (rom v).lenBytes ≤ msg.length % (rom v).blockBytes then 1 else 0 := by
  obtain ⟨hphase, -⟩ := absorbing_message v msg s
  have hinit : compressions (.init (variantCode v)) s = 0 := rfl
  have hbytes : totalCompressions (updateCmds msg) (freshContext v s) = msg.length / (rom v).blockBytes := by
    rw [(absorbing_freshContext v s).totalCompressions_updateCmds msg]
    simp
  have hfinal : totalCompressions [.final] (absorbAll msg (freshContext v s)) =
      if needsExtraBlock v (msg.length % (rom v).blockBytes) then 2 else 1 := by
    rw [totalCompressions_cons (exec_final_of_bu_lt hphase (absorbing_message v msg s).room),
      compressions_final_of_absorbing hphase, absorbAll_freshContext_var, absorbAll_freshContext_bu]
    rfl
  rw [hashCmds, totalCompressions_append (execAll_through_final v msg hs), totalCompressions_digestCmds,
    totalCompressions_append (execAll_message v msg hs), hfinal, List.singleton_append,
    totalCompressions_cons (exec_init_of_variant v hs), hinit, hbytes]
  simp only [needsExtraBlock_iff_le (Nat.mod_lt _ (blockBytes_pos v))]
  split_ifs <;> omega

/-- Settles O53: the bytes make one compression per whole block, FINAL one or two, INIT and the RDBYTEs none. -/
theorem hashCompressionCount : Obligations.HashCompressionCount := fun v msg _ hs =>
  ⟨rfl, List.length_map _, digestCmds_length v, totalCompressions_hashCmds v msg hs⟩

end Sys2Proof.Machine
end

section
/-! SUPPORT. The datapath's own laws: the codec's two directions, the bit primitives, the source's order of the round and
the rolling schedule (`40_codec.md` R402 to R408, `41_schedule.md` R503, `42_compress.md` R600). -/

namespace Sys2Proof.Machine

/- ### The codec -/

/-- The bytes of a number in base 256 are determined by it, most significant byte first. -/
theorem bytesToWordBE_injective {s t : List Byte} (hlen : s.length = t.length)
    (h : bytesToWordBE s = bytesToWordBE t) : s = t := by
  induction s generalizing t with
  | nil => exact (List.length_eq_zero_iff.mp hlen.symm).symm
  | cons b s ih =>
    obtain _ | ⟨c, t⟩ := t
    · simp at hlen
    · have hlen' : s.length = t.length := by simpa using hlen
      simp only [bytesToWordBE, hlen'] at h
      have hs : bytesToWordBE s < 2 ^ (8 * t.length) := hlen' ▸ bytesToWordBE_lt s
      have ht := bytesToWordBE_lt t
      have hhead : b.toNat = c.toNat := by
        have hdiv := congrArg (· / 2 ^ (8 * t.length)) h
        simpa [Nat.mul_comm _ (2 ^ (8 * t.length)), Nat.mul_add_div (Nat.two_pow_pos _), Nat.div_eq_of_lt hs,
          Nat.div_eq_of_lt ht] using hdiv
      have htail : bytesToWordBE s = bytesToWordBE t := by
        rw [hhead] at h
        exact Nat.add_left_cancel h
      rw [BitVec.eq_of_toNat_eq hhead, ih hlen' htail]

theorem wordToBytesBE_bytesToWordBE (s : List Byte) : wordToBytesBE (bytesToWordBE s) s.length = s :=
  bytesToWordBE_injective (wordToBytesBE_length _ _)
    (by rw [bytesToWordBE_wordToBytesBE, Nat.mod_eq_of_lt (bytesToWordBE_lt s)])

/-- Settles O40: n bytes carry a number modulo 2^(8n), and they are determined by it. -/
theorem codecLaws : Obligations.CodecLaws :=
  ⟨fun n x hx => by rw [bytesToWordBE_wordToBytesBE, Nat.mod_eq_of_lt hx], wordToBytesBE_bytesToWordBE⟩

/- ### The bit primitives -/

/-- Below w the rotated bit comes from the right shift; from w on it wraps round through the left shift (R405). -/
theorem getLsbD_rotr {w n i : Nat} (x : BitVec w) (hn : n < w) (hi : i < w) :
    (rotr x n).getLsbD i = x.getLsbD ((i + n) % w) := by
  rw [rotr, BitVec.getLsbD_or, BitVec.getLsbD_ushiftRight, BitVec.getLsbD_shiftLeft, Nat.add_comm n i]
  obtain hlt | hge := Nat.lt_or_ge (i + n) w
  · have hleft : i < w - n := by omega
    simp [Nat.mod_eq_of_lt hlt, hleft]
  · have hmod : (i + n) % w = i - (w - n) := by
      rw [Nat.mod_eq_sub_mod hge, Nat.mod_eq_of_lt (by omega)]
      omega
    have hright : x.getLsbD (i + n) = false := BitVec.getLsbD_of_ge x _ hge
    have hleft : ¬i < w - n := by omega
    simp [hmod, hright, hleft, hi]

theorem getLsbD_shr {w n i : Nat} (x : BitVec w) :
    (shr x n).getLsbD i = (decide (i + n < w) && x.getLsbD (i + n)) := by
  rw [shr, BitVec.getLsbD_ushiftRight, Nat.add_comm n i]
  obtain hlt | hge := Nat.lt_or_ge (i + n) w
  · simp [hlt]
  · simp [BitVec.getLsbD_of_ge x _ hge]

theorem getLsbD_ch {w i : Nat} (e f g : BitVec w) (hi : i < w) :
    (ch e f g).getLsbD i = if e.getLsbD i then f.getLsbD i else g.getLsbD i := by
  rw [ch, BitVec.getLsbD_xor, BitVec.getLsbD_and, BitVec.getLsbD_and, BitVec.getLsbD_not]
  cases e.getLsbD i <;> simp [hi]

theorem getLsbD_maj {w i : Nat} (a b c : BitVec w) : (maj a b c).getLsbD i =
    decide (2 ≤ (a.getLsbD i).toNat + (b.getLsbD i).toNat + (c.getLsbD i).toNat) := by
  have hmajority : ∀ x y z : Bool, ((x && y) ^^ (x && z) ^^ (y && z)) = decide (2 ≤ x.toNat + y.toNat + z.toNat) := by
    decide
  rw [maj, BitVec.getLsbD_xor, BitVec.getLsbD_xor, BitVec.getLsbD_and, BitVec.getLsbD_and, BitVec.getLsbD_and,
    hmajority]

/-- Settles O41: each primitive at one bit. -/
theorem bitPrimitives : Obligations.BitPrimitives :=
  ⟨fun _ _ _ x _ hn hi => getLsbD_rotr x hn hi, fun _ _ _ x _ _ _ => getLsbD_shr x,
    fun _ _ e f g hi => getLsbD_ch e f g hi, fun _ _ a b c _ => getLsbD_maj a b c⟩

/- ### The source's order of the round -/

/-- Assigning from h down to a, each variable is read before it is overwritten. -/
theorem sequentialRound_eq_round (P : Params) (v : Words8 P.wb) (K W : BitVec P.wb) :
    sequentialRound P v K W = round P v K W := rfl

/-- Settles O44: the two orders agree round by round. -/
theorem sequentialRoundsAgree : Obligations.SequentialRoundsAgree := fun P st W => by
  simp only [rounds, sequentialRound_eq_round]

/- ### The rolling schedule -/

/-- The schedule grown n words past the input: at the number P.R - 16 it is `expandSchedule`, and the rolling window
reads up to 16 words further. -/
def grown (P : Params) (blk : List Byte) (n : Nat) : List (BitVec P.wb) :=
  (List.range' 16 n).foldl (fun W i => W ++ [nextWord P W i]) (inputWords P blk)

theorem expandSchedule_eq_grown (P : Params) (blk : List Byte) : expandSchedule P blk = grown P blk (P.rounds - 16) :=
  rfl

theorem grown_length (P : Params) (blk : List Byte) (n : Nat) : (grown P blk n).length = 16 + n :=
  (grownSchedule P (inputWords P blk) (inputWords_length P blk) n).1

theorem grown_succ (P : Params) (blk : List Byte) (n : Nat) :
    grown P blk (n + 1) = grown P blk n ++ [nextWord P (grown P blk n) (16 + n)] := by
  simp only [grown, List.range'_concat, List.foldl_append, List.foldl_cons, List.foldl_nil, Nat.one_mul]

/-- Growing further changes no word that is there. -/
theorem getD_grown_of_le (P : Params) (blk : List Byte) {m n i : Nat} (hmn : m ≤ n) (hi : i < 16 + m) :
    (grown P blk n).getD i 0 = (grown P blk m).getD i 0 := by
  induction n, hmn using Nat.le_induction with
  | base => rfl
  | succ n hmn ih => rw [grown_succ, List.getD_append _ _ _ _ (by rw [grown_length]; omega), ih]

/-- Word i of the schedule without an end (`41_schedule.md` R500, R501). -/
def scheduleWord (P : Params) (blk : List Byte) (i : Nat) : BitVec P.wb := (grown P blk i).getD i 0

theorem getD_grown (P : Params) (blk : List Byte) {n i : Nat} (hi : i < 16 + n) :
    (grown P blk n).getD i 0 = scheduleWord P blk i := by
  obtain hin | hni := Nat.le_total i n
  · exact getD_grown_of_le P blk hin (by omega)
  · exact (getD_grown_of_le P blk hni hi).symm

theorem getD_expandSchedule {P : Params} (hP : 16 ≤ P.rounds) (blk : List Byte) {i : Nat} (hi : i < P.rounds) :
    (expandSchedule P blk).getD i 0 = scheduleWord P blk i := by
  rw [expandSchedule_eq_grown, getD_grown P blk (by omega)]

/-- The recurrence of R501 reads four of the sixteen words before its own. -/
theorem nextWord_eq_of_getD {P : Params} {W : List (BitVec P.wb)} {n : Nat} {f : Nat → BitVec P.wb}
    (hW : ∀ k < 16, W.getD (n + k) 0 = f k) :
    nextWord P W (n + 16) = f 0 + smallSigma0 P (f 1) + f 9 + smallSigma1 P (f 14) := by
  rw [← hW 0 (by omega), ← hW 1 (by omega), ← hW 9 (by omega), ← hW 14 (by omega)]
  rfl

theorem scheduleWord_add_sixteen (P : Params) (blk : List Byte) (n : Nat) : scheduleWord P blk (n + 16) =
    scheduleWord P blk (n + 0) + smallSigma0 P (scheduleWord P blk (n + 1)) + scheduleWord P blk (n + 9) +
      smallSigma1 P (scheduleWord P blk (n + 14)) := by
  have hlast : (grown P blk (n + 1)).getD (n + 16) 0 = nextWord P (grown P blk n) (n + 16) := by
    rw [grown_succ, Nat.add_comm 16 n, List.getD_append_right _ _ _ _ (by rw [grown_length]; omega), grown_length]
    simp [Nat.add_comm 16 n]
  rw [← getD_grown P blk (show n + 16 < 16 + (n + 1) by omega), hlast,
    nextWord_eq_of_getD fun k hk => getD_grown P blk (by omega)]

/-- The window of `41_schedule.md` R503 before round n: W[n] to W[n + 15]. -/
def window (P : Params) (blk : List Byte) (n : Nat) : List (BitVec P.wb) :=
  (List.range 16).map fun k => scheduleWord P blk (n + k)

theorem getD_window (P : Params) (blk : List Byte) (n : Nat) {k : Nat} (hk : k < 16) :
    (window P blk n).getD k 0 = scheduleWord P blk (n + k) := by
  simp [window, List.getD, hk]

theorem inputWords_eq_window (P : Params) (blk : List Byte) : inputWords P blk = window P blk 0 := by
  refine List.map_congr_left fun k hk => ?_
  have hk : k < 16 := List.mem_range.mp hk
  rw [Nat.zero_add, ← getD_grown P blk (show k < 16 + 0 by omega), ← getD_inputWords P blk hk]
  rfl

theorem nextWord_window (P : Params) (blk : List Byte) (n : Nat) :
    nextWord P (window P blk n) 16 = scheduleWord P blk (n + 16) := by
  have hwords : ∀ k < 16, (window P blk n).getD (0 + k) 0 = scheduleWord P blk (n + k) := fun k hk => by
    rw [Nat.zero_add, getD_window P blk n hk]
  exact (nextWord_eq_of_getD hwords).trans (scheduleWord_add_sixteen P blk n).symm

/-- The first word leaves the window and the next one enters at its end. -/
theorem window_succ (P : Params) (blk : List Byte) (n : Nat) :
    (window P blk n).drop 1 ++ [nextWord P (window P blk n) 16] = window P blk (n + 1) := by
  have hshift (k : Nat) : n + (k + 1) = n + 1 + k := by omega
  have hfirst : List.range 16 = 0 :: (List.range 15).map (· + 1) := List.range_succ_eq_map
  have hlast : List.range 16 = List.range 15 ++ [15] := List.range_succ
  have hdrop : (window P blk n).drop 1 = (List.range 15).map fun k => scheduleWord P blk (n + 1 + k) := by
    rw [window, hfirst, List.map_cons, List.drop_one, List.tail_cons, List.map_map]
    exact List.map_congr_left fun k _ => congrArg (scheduleWord P blk) (hshift k)
  rw [hdrop, nextWord_window, window, hlast, List.map_append, List.map_singleton, Nat.add_assoc n 1 15]

/-- n rolling rounds: the window has moved on by n words, and the working variables are those of n rounds on the whole
schedule. -/
theorem foldl_rollingRound (P : Params) (blk : List Byte) (st : Words8 P.wb) (n : Nat) :
    (List.range n).foldl (rollingRound P) (window P blk 0, st) = (window P blk n,
      (List.range n).foldl (fun v i => round P v (P.K.getD i 0) (scheduleWord P blk i)) st) := by
  induction n with
  | zero => rfl
  | succ n ih =>
    rw [List.range_succ, List.foldl_concat, List.foldl_concat, ih, rollingRound, window_succ,
      getD_window P blk n (by omega)]
    rfl

theorem rollingCompress_eq {P : Params} (hP : 16 ≤ P.rounds) (st : Words8 P.wb) (blk : List Byte) :
    rollingCompress P st blk = compress P st (expandSchedule P blk) := by
  have hrounds : rounds P st (expandSchedule P blk) =
      (List.range P.rounds).foldl (fun v i => round P v (P.K.getD i 0) (scheduleWord P blk i)) st :=
    List.foldl_ext _ _ _ fun v i hi => by rw [getD_expandSchedule hP blk (List.mem_range.mp hi)]
  rw [rollingCompress, inputWords_eq_window, foldl_rollingRound, compress, hrounds]

/-- Settles O46: both forms run the rounds on the words of one schedule; the window reads past its end, where no round
looks. -/
theorem rollingScheduleAgrees : Obligations.RollingScheduleAgrees := fun v =>
  rollingCompress_eq (rom_sixteen_le_rounds v)

end Sys2Proof.Machine
end

section
/-! SUPPORT. What the commands leave unchanged: the reading commands, the write sets, and the control state, which no data
reaches (`10_state.md` R130, `20_memory.md` R208 and R218). -/

namespace Sys2Proof.Machine

/- ### The reading commands -/

/-- Settles O32: RDBYTE, SIZE and RDSTAT read elements other than RES, so a second one writes RES with the same value. -/
theorem readsChangeOnlyRes : Obligations.ReadsChangeOnlyRes := by
  intro i s t hi h ht
  cases exec_cases h with
  | same => exact ⟨rfl, h⟩
  | fault c hs => exact absurd (ht rfl) hs
  | init v hv => obtain ⟨k, rfl⟩ | rfl | rfl := hi <;> exact nomatch hv
  | absorb b hb => obtain ⟨k, rfl⟩ | rfl | rfl := hi <;> exact nomatch hb
  | final hf => obtain ⟨k, rfl⟩ | rfl | rfl := hi <;> exact nomatch hf
  | rdbyte k hk hs hdl => exact ⟨rfl, hk ▸ exec_rdbyte_of_finalized hs hdl⟩
  | size hi hs => exact ⟨rfl, hi ▸ exec_size_of_context hs⟩
  | rdstat hi => exact ⟨rfl, hi ▸ exec_rdstat⟩

/- ### The write sets -/

/-- Of the commands only those that fault write CAUSE. -/
theorem ExecResult.cause_eq {i : Instr} {s t : State} (hr : ExecResult i s t) (ht : t.phase ≠ .faulted) :
    t.cause = s.cause := by
  cases hr with
  | fault => exact absurd rfl ht
  | absorb b => exact afterByte_cause b s
  | same | init | final | rdbyte | size | rdstat => rfl

theorem readByte_afterByte_of_ne {s : State} (hw : Memory.wf s.blk) (b : Byte) {a : Nat} (ha : a ≠ s.bu.toNat) :
    readByte a (afterByte b s).blk = readByte a s.blk := by
  rw [afterByte_blk, readByte_writeByte hw, if_neg ha]

theorem afterByte_h_of_not_full (b : Byte) {s : State} (hbu : s.bu.toNat < (rom s.var).blockBytes)
    (hne : s.bu.toNat + 1 ≠ (rom s.var).blockBytes) : (afterByte b s).h = s.h := by
  obtain ⟨-, -, hh⟩ := afterByte_bu_of_lt b (lt_of_le_of_ne (Nat.succ_le_of_lt hbu) hne)
  exact hh

theorem readByte_afterFinal_outside {s : State} (hw : Memory.wf s.blk) (hbu : s.bu.toNat < (rom s.var).blockBytes)
    {a : Nat} (ha : (rom s.var).blockBytes ≤ a) : readByte a (afterFinal s).blk = readByte a s.blk := by
  rw [afterFinal_blk, readByte_paddedBuffer hw hbu, if_pos ha]

/-- Without an extra block the message bytes stay where they are. -/
theorem readByte_afterFinal_below {s : State} (hw : Memory.wf s.blk) (hbu : s.bu.toNat < (rom s.var).blockBytes)
    (hx : needsExtraBlock s.var s.bu.toNat = false) {a : Nat} (ha : a < s.bu.toNat) :
    readByte a (afterFinal s).blk = readByte a s.blk := by
  rw [needsExtraBlock_eq_false_iff] at hx
  rw [afterFinal_blk, readByte_paddedBuffer hw hbu, if_neg (by omega), if_neg (by omega), if_neg hx, if_pos ha]

/-- Settles O33: the write set of each completed command, read off the state it leaves. -/
theorem commandFrames : Obligations.CommandFrames := by
  intro i s t h hs ht htp
  have hw := h.bufferCanonical
  have hbu := h.fillBelowBlock
  have hr := exec_cases ht
  refine ⟨hr.cause_eq htp, exec_port ht, (hr.inv h).bufferCanonical, ?_⟩
  cases hr with
  | same hf => exact absurd hf hs
  | fault => exact absurd rfl htp
  | init v hi =>
    subst hi
    rfl
  | absorb b hi =>
    subst hi
    exact ⟨afterByte_phase b s, afterByte_var b s, afterByte_res b s, afterByte_h_of_not_full b hbu,
      fun a => readByte_afterByte_of_ne hw b⟩
  | final hi =>
    subst hi
    exact ⟨rfl, rfl, rfl, fun a => readByte_afterFinal_outside hw hbu, fun hx a => readByte_afterFinal_below hw hbu hx⟩
  | rdbyte k hi | size hi | rdstat hi =>
    subst hi
    exact ⟨rfl, fun a => rfl⟩

/- ### Control -/

/-- Two states of the same PHASE, VAR, TL and BU, whatever their H, BLK, RES and CAUSE. -/
structure SameControl (s t : State) : Prop where
  phase : s.phase = t.phase
  var : s.var = t.var
  tl : s.tl = t.tl
  bu : s.bu = t.bu

/-- BU after ABSORB, from VAR and BU (`43_buffer.md` R705). -/
theorem afterByte_bu (b : Byte) (s : State) :
    (afterByte b s).bu = if (s.bu + 1).toNat = (rom s.var).blockBytes then 0 else s.bu + 1 := by
  simp only [afterByte]
  split_ifs <;> rfl

theorem SameControl.afterByte {s t : State} (h : SameControl s t) (b c : Byte) :
    SameControl (afterByte b s) (afterByte c t) where
  phase := by rw [afterByte_phase, afterByte_phase, h.phase]
  var := by rw [afterByte_var, afterByte_var, h.var]
  tl := by rw [afterByte_tl, afterByte_tl, h.var, h.tl]
  bu := by rw [afterByte_bu, afterByte_bu, h.var, h.bu]

/-- The conditions of the cause table read PHASE and VAR alone. -/
theorem Raises.of_sameControl {s t : State} {d : Except Illegal Instr} {c : Cause} (h : SameControl s t)
    (hr : Raises s d c) : Raises t d c := by
  cases hr with
  | illegalCmd e => exact .illegalCmd e
  | badVariant var hv => exact .badVariant var hv
  | notConfigured i hp hinit hrdstat => exact .notConfigured i (h.phase ▸ hp) hinit hrdstat
  | absorbAfterFinal b hp => exact .absorbAfterFinal b (h.phase ▸ hp)
  | finalTwice hp => exact .finalTwice (h.phase ▸ hp)
  | digestNotReady k hp => exact .digestNotReady k (h.phase ▸ hp)
  | digestIndex k hp hk => exact .digestIndex k (h.phase ▸ hp) (h.var ▸ hk)

/-- A command that completes in one of two states of the same control completes in the other, in the same control. -/
theorem SameControl.exec {i : Instr} {s t s' : State} (h : SameControl s t) (hs' : exec i s = .next s') :
    ∃ t', exec i t = .next t' ∧ SameControl s' t' := by
  cases exec_cases hs' with
  | same hs hi => exact ⟨t, exec_of_faulted (h.phase ▸ hs) hi, h⟩
  | fault c hs =>
    obtain ⟨c', hr⟩ := exists_raises_of_exec hs hs' rfl
    exact ⟨_, (hr.of_sameControl h).exec_eq (h.phase ▸ hs), rfl, h.var, h.tl, h.bu⟩
  | init v hi hs =>
    subst hi
    exact ⟨_, exec_init_of_variant v (h.phase ▸ hs), rfl, rfl, rfl, rfl⟩
  | absorb b hi hs hb =>
    subst hi
    exact ⟨_, exec_absorb_of_absorbing b (h.phase ▸ hs) (h.bu ▸ hb), h.afterByte b b⟩
  | final hi hs hb =>
    subst hi
    exact ⟨_, exec_final_of_absorbing (h.phase ▸ hs) (h.bu ▸ hb), rfl, h.var, h.tl, rfl⟩
  | rdbyte k hi hs hk =>
    subst hi
    exact ⟨_, exec_rdbyte_of_finalized (h.phase ▸ hs) (h.var ▸ hk), h.phase, h.var, h.tl, h.bu⟩
  | size hi hs =>
    subst hi
    exact ⟨_, exec_size_of_context (h.phase ▸ hs), h.phase, h.var, h.tl, h.bu⟩
  | rdstat hi =>
    subst hi
    exact ⟨_, exec_rdstat, h.phase, h.var, h.tl, h.bu⟩

/-- The message byte of ABSORB does not reach control. -/
theorem exec_absorb_sameControl {b : Byte} (c : Byte) {s s' : State} (hs' : exec (.absorb b) s = .next s') :
    ∃ t', exec (.absorb c) s = .next t' ∧ SameControl s' t' := by
  cases hp : s.phase with
  | faulted =>
    cases hs'.symm.trans (exec_of_faulted hp nofun)
    exact ⟨s, exec_of_faulted hp nofun, rfl, rfl, rfl, rfl⟩
  | unconfigured =>
    cases hs'.symm.trans (exec_of_unconfigured hp nofun nofun)
    exact ⟨_, exec_of_unconfigured hp nofun nofun, rfl, rfl, rfl, rfl⟩
  | finalized =>
    cases hs'.symm.trans (exec_absorb_of_finalized b hp)
    exact ⟨_, exec_absorb_of_finalized c hp, rfl, rfl, rfl, rfl⟩
  | absorbing =>
    rw [exec_absorb_eq_of_absorbing b hp] at hs'
    split_ifs at hs' with hb
    cases hs'
    have hself : SameControl s s := ⟨rfl, rfl, rfl, rfl⟩
    exact ⟨_, exec_absorb_of_absorbing c hp hb, hself.afterByte b c⟩

/-- Settles O51: the first command completes in the second state in the same control, and there a change of ABSORB's byte
does not change it. -/
theorem controlDataIndependent : Obligations.ControlDataIndependent := by
  intro i j s t s' t' hij hphase hvar htl hbu hs' ht'
  have h : SameControl s t := ⟨hphase, hvar, htl, hbu⟩
  obtain ⟨u, hu, hsu⟩ := h.exec hs'
  have hut : SameControl u t' := by
    obtain rfl | ⟨b, c, rfl, rfl⟩ := hij
    · cases hu.symm.trans ht'
      exact ⟨rfl, rfl, rfl, rfl⟩
    · obtain ⟨w, hw, huw⟩ := exec_absorb_sameControl c hu
      cases hw.symm.trans ht'
      exact huw
  exact ⟨hsu.phase.trans hut.phase, hsu.var.trans hut.var, hsu.tl.trans hut.tl, hsu.bu.trans hut.bu⟩

end Sys2Proof.Machine
end

section
/-! SUPPORT. The assembler's statements: the words of single statements and the expansion of the pseudo-instructions
(`30_encoding.md` R310, R311). -/

namespace Sys2Proof.Machine

/- ### Single statements -/

theorem assemble_singleton (line : Source) : assemble [line] =
    if line.wellFormed then (expand none line).map (·.map encode) else none := by
  rw [assemble, assembleFrom]
  split_ifs
  · cases expand none line with
    | none => rfl
    | some cmds => simp [assembleFrom]
  · rfl

/-- A number that fits an operand's field is its value in the command word. -/
theorem setWidth_ofNat_of_lt {n k : Nat} (hk : n < 2 ^ k) : (BitVec.ofNat k n).setWidth 32 = BitVec.ofNat 32 n := by
  apply BitVec.eq_of_toNat_eq
  rw [BitVec.toNat_setWidth, BitVec.toNat_ofNat, BitVec.toNat_ofNat, Nat.mod_eq_of_lt hk]

/-- Settles O56: an operand in range fits its field, which the encoder lays behind zeros; one out of range is no
well-formed statement. -/
theorem assemblerWords : Obligations.AssemblerWords := by
  refine ⟨fun n => ?init, by decide, fun n => ?absorb, by decide, fun n => ?rdbyte, by decide, by decide⟩
  case init =>
    rw [assemble_singleton]
    by_cases hn : n < 16
    · simp [Source.wellFormed, VariantArg.wellFormed, hn, expand, variantArgCode, ← or_setWidth_eq_encode_init,
        setWidth_ofNat_of_lt (k := 4) hn]
    · simp [Source.wellFormed, VariantArg.wellFormed, hn]
  case absorb =>
    rw [assemble_singleton]
    by_cases hn : n < 256
    · simp [Source.wellFormed, hn, expand, ← or_setWidth_eq_encode_absorb, setWidth_ofNat_of_lt (k := 8) hn]
    · simp [Source.wellFormed, hn]
  case rdbyte =>
    rw [assemble_singleton]
    by_cases hn : n < 256
    · simp [Source.wellFormed, hn, expand, ← or_setWidth_eq_encode_rdbyte, setWidth_ofNat_of_lt (k := 8) hn]
    · simp [Source.wellFormed, hn]

/- ### Pseudo-instructions -/

/-- A statement with operands in range and known commands, in front of a program. -/
theorem assembleFrom_cons {current : Option Variant} {line : Source} {cmds : List Instr} (hw : line.wellFormed = true)
    (hx : expand current line = some cmds) (rest : List Source) : assembleFrom current (line :: rest) =
      (assembleFrom (variantAfter current line) rest).map (cmds ++ ·) := by
  rw [assembleFrom, if_pos hw, hx]
  cases assembleFrom (variantAfter current line) rest <;> rfl

theorem assembleFrom_of_not_wellFormed {line : Source} (hw : line.wellFormed = false) (current : Option Variant)
    (rest : List Source) : assembleFrom current (line :: rest) = none := by
  rw [assembleFrom, if_neg (by rw [hw]; exact Bool.false_ne_true)]

theorem assembleFrom_of_expand_none {current : Option Variant} {line : Source} (hx : expand current line = none)
    (rest : List Source) : assembleFrom current (line :: rest) = none := by
  rw [assembleFrom, hx]
  exact ite_self none

/-- One ABSORB per byte, all of them in range or an error. -/
theorem assembleFrom_map_absorb (current : Option Variant) (bytes : List Nat) :
    assembleFrom current (bytes.map .absorb) =
      if bytes.all (· < 256) then some (updateCmds (bytes.map (BitVec.ofNat 8))) else none := by
  induction bytes with
  | nil => rfl
  | cons b bytes ih =>
    rw [List.map_cons]
    by_cases hb : b < 256
    · rw [assembleFrom_cons (line := .absorb b) (decide_eq_true hb) rfl, variantAfter, ih, apply_ite (Option.map _)]
      simp [hb, updateCmds]
    · rw [assembleFrom_of_not_wellFormed (line := .absorb b) (decide_eq_false hb)]
      simp [hb]

theorem assembleFrom_map_rdbyte (current : Option Variant) {ks : List Nat} (hks : ∀ k ∈ ks, k < 256) :
    assembleFrom current (ks.map .rdbyte) = some (ks.map fun k => .rdbyte (BitVec.ofNat 8 k)) := by
  induction ks with
  | nil => rfl
  | cons k ks ih =>
    obtain ⟨hk, hks⟩ := List.forall_mem_cons.mp hks
    rw [List.map_cons, assembleFrom_cons (line := .rdbyte k) (decide_eq_true hk) rfl, variantAfter, ih hks]
    rfl

theorem assembleFrom_absorbs (current : Option Variant) (bytes : List Nat) (rest : List Source) :
    assembleFrom current (.absorbs bytes :: rest) = if bytes.all (· < 256) then
      (assembleFrom current rest).map (updateCmds (bytes.map (BitVec.ofNat 8)) ++ ·) else none := by
  split_ifs with hb
  · exact assembleFrom_cons (line := .absorbs bytes) hb rfl rest
  · exact assembleFrom_of_not_wellFormed (line := .absorbs bytes) (Bool.eq_false_of_not_eq_true hb) current rest

/-- FINAL and DIGEST against a known variant, or against none. -/
theorem assembleFrom_final_digest (current : Option Variant) :
    assembleFrom current [.final, .digest] = current.map fun v => [.final] ++ digestCmds v := by
  rw [assembleFrom_cons rfl rfl, variantAfter]
  cases current with
  | none => rfl
  | some v => rw [assembleFrom_cons rfl rfl]; simp [assembleFrom]

theorem assembleFrom_hash (current : Option Variant) (v : VariantArg) (bytes : List Nat) :
    assembleFrom current [.hash v bytes] = assembleFrom current [.init v, .absorbs bytes, .final, .digest] := by
  by_cases hv : v.wellFormed = true
  · rw [assembleFrom_cons (line := .init v) hv rfl, assembleFrom_absorbs, assembleFrom_final_digest, variantAfter]
    by_cases hb : bytes.all (· < 256) = true
    · have hw : (Source.hash v bytes).wellFormed = true := Bool.and_eq_true_iff.mpr ⟨hv, hb⟩
      rw [if_pos hb]
      cases hu : variantOfCode (variantArgCode v) with
      | none => exact assembleFrom_of_expand_none (by rw [expand, hu]; rfl) []
      | some u =>
        rw [variantOfCode_eq_some] at hu
        rw [assembleFrom_cons hw (by rw [expand, hu, variantOfCode_variantCode]; rfl) []]
        simp [assembleFrom, hashCmds, hu]
    · have hw : (Source.hash v bytes).wellFormed = false := by
        rw [Source.wellFormed, Bool.eq_false_of_not_eq_true hb, Bool.and_false]
      rw [if_neg hb, assembleFrom_of_not_wellFormed hw]
      rfl
  · have hw : (Source.hash v bytes).wellFormed = false := by
      rw [Source.wellFormed, Bool.eq_false_of_not_eq_true hv, Bool.false_and]
    rw [assembleFrom_of_not_wellFormed hw,
      assembleFrom_of_not_wellFormed (line := .init v) (Bool.eq_false_of_not_eq_true hv)]

theorem assembleFrom_init_digest (v : Variant) : assembleFrom none [.init (.named v), .digest] =
    assembleFrom none (.init (.named v) :: (List.range (rom v).dl).map .rdbyte) := by
  have hindex : ∀ k ∈ List.range (rom v).dl, k < 256 := fun k hk => by
    have hdl := rom_dl_le v
    have hk := List.mem_range.mp hk
    omega
  have hinit (rest : List Source) : assembleFrom none (.init (.named v) :: rest) =
      (assembleFrom (some v) rest).map ([.init (variantCode v)] ++ ·) := by
    rw [assembleFrom_cons (line := .init (.named v)) rfl rfl, variantAfter, variantArgCode, variantOfCode_variantCode]
  rw [hinit, hinit, assembleFrom_map_rdbyte _ hindex, assembleFrom_cons (line := .digest) rfl rfl]
  simp [assembleFrom, digestCmds]

/-- Settles O57: each side expands to the same commands, or to an error under the same condition. -/
theorem pseudoInstructionsExpand : Obligations.PseudoInstructionsExpand := by
  refine ⟨fun bytes => ?_, fun v => ?_, rfl, fun v bytes => ?_⟩
  · rw [assemble, assemble, assembleFrom_absorbs, assembleFrom_map_absorb]
    simp [assembleFrom]
  · rw [assemble, assemble, assembleFrom_init_digest]
  · rw [assemble, assemble, assembleFrom_hash]

end Sys2Proof.Machine
end

section
/-! SUPPORT. The ROM's constants as roots of primes (`10_state.md` R121 to R123): the primes in order, a check of root
fractions that evaluates, and the initial state of SHA-512/256 as a digest. -/

namespace Sys2Proof.Machine

/- ### The primes in order -/

theorem count_eq_length_filter_range (p : Nat → Prop) [DecidablePred p] (n : Nat) :
    Nat.count p n = ((List.range n).filter p).length := by
  rw [Nat.count_eq_card_filter_range]
  rfl

/-- The numbers below n with a property, in order, are the first numbers that have it. -/
theorem nth_eq_getElem_filter_range (p : Nat → Prop) [DecidablePred p] (n : Nat) {i : Nat}
    (hi : i < ((List.range n).filter p).length) : Nat.nth p i = ((List.range n).filter p)[i] := by
  induction n with
  | zero => simp at hi
  | succ n ih =>
    by_cases hp : p n
    · have hgrow : (List.range (n + 1)).filter p = (List.range n).filter p ++ [n] := by
        simp [List.range_succ, hp]
      simp only [hgrow, List.length_append, List.length_singleton] at hi ⊢
      obtain hlt | rfl := Nat.lt_or_eq_of_le (Nat.le_of_lt_succ hi)
      · rw [List.getElem_append_left hlt, ih hlt]
      · rw [List.getElem_concat_length rfl, ← count_eq_length_filter_range, Nat.nth_count hp]
    · have hsame : (List.range (n + 1)).filter p = (List.range n).filter p := by
        simp [List.range_succ, hp]
      simp only [hsame] at hi ⊢
      exact ih hi

/-- The primes up to that of the last constant of K64. -/
def firstPrimes : List Nat :=
  [2, 3, 5, 7, 11, 13, 17, 19, 23, 29, 31, 37, 41, 43, 47, 53, 59, 61, 67, 71, 73, 79, 83, 89, 97, 101, 103, 107, 109,
   113, 127, 131, 137, 139, 149, 151, 157, 163, 167, 173, 179, 181, 191, 193, 197, 199, 211, 223, 227, 229, 233, 239,
   241, 251, 257, 263, 269, 271, 277, 281, 283, 293, 307, 311, 313, 317, 331, 337, 347, 349, 353, 359, 367, 373, 379,
   383, 389, 397, 401, 409]

theorem filter_minFac_range_eq_firstPrimes :
    (List.range 410).filter (fun n => 2 ≤ n ∧ n.minFac = n) = firstPrimes := by decide +kernel

theorem filter_prime_range_eq_firstPrimes : (List.range 410).filter Nat.Prime = firstPrimes := by
  rw [← filter_minFac_range_eq_firstPrimes]
  exact List.filter_congr fun n _ => decide_eq_decide.mpr Nat.prime_def_minFac

theorem nth_prime_eq_getD_firstPrimes {i : Nat} (hi : i < 80) : Nat.nth Nat.Prime i = firstPrimes.getD i 0 := by
  have hlen : i < firstPrimes.length := hi
  have hnth := nth_eq_getElem_filter_range Nat.Prime 410 (i := i) (by rwa [filter_prime_range_eq_firstPrimes])
  rw [hnth, List.getD_eq_getElem _ _ hlen]
  simp only [filter_prime_range_eq_firstPrimes]

/- ### Root fractions -/

/-- A root fraction whose whole part is below 8, as the roots of the ROM's primes are: a check that evaluates. -/
def hasSmallRoot (k p n frac : Nat) : Bool :=
  (List.range 8).any fun c => c ^ k ≤ p ∧ p < (c + 1) ^ k ∧ (c * 2 ^ n + frac) ^ k ≤ p * 2 ^ (n * k) ∧
    p * 2 ^ (n * k) < (c * 2 ^ n + frac + 1) ^ k

theorem isRootFraction_of_hasSmallRoot {k p n frac : Nat} (h : hasSmallRoot k p n frac = true) :
    IsRootFraction k p n frac := by
  obtain ⟨c, -, hc⟩ := List.any_eq_true.mp h
  exact ⟨c, of_decide_eq_true hc⟩

/-- The check against the i-th prime of the table. -/
theorem isRootFraction_nth_prime {k i n frac : Nat} (hi : i < 80)
    (h : hasSmallRoot k (firstPrimes.getD i 0) n frac = true) : IsRootFraction k (Nat.nth Nat.Prime i) n frac := by
  rw [nth_prime_eq_getD_firstPrimes hi]
  exact isRootFraction_of_hasSmallRoot h

theorem k32_hasSmallRoot : ∀ i < 64, hasSmallRoot 3 (firstPrimes.getD i 0) 32 (k32.getD i 0).toNat = true := by
  decide +kernel

theorem k64_hasSmallRoot : ∀ i < 80, hasSmallRoot 3 (firstPrimes.getD i 0) 64 (k64.getD i 0).toNat = true := by
  decide +kernel

theorem k64_high_eq_k32 : ∀ i < 64, (k64.getD i 0).extractLsb' 32 32 = k32.getD i 0 := by decide +kernel

theorem ivSha256_hasSmallRoot : ∀ j : Fin 8,
    hasSmallRoot 2 (firstPrimes.getD j 0) 32 (ivSha256.get j).toNat = true := by decide +kernel

theorem ivSha512_hasSmallRoot : ∀ j : Fin 8,
    hasSmallRoot 2 (firstPrimes.getD j 0) 64 (ivSha512.get j).toNat = true := by decide +kernel

theorem ivSha384_hasSmallRoot : ∀ j : Fin 8,
    hasSmallRoot 2 (firstPrimes.getD (j + 8) 0) 64 (ivSha384.get j).toNat = true := by decide +kernel

/-- The initial state of SHA-224 is the low halves of the words of that of SHA-384. -/
theorem ivSha384_eq_high_add_ivSha224 : ∀ j : Fin 8,
    (ivSha384.get j).toNat = (ivSha384.get j).toNat / 2 ^ 32 * 2 ^ 32 + (ivSha224.get j).toNat := by decide +kernel

/-- The digest of "SHA-512/256" under the xored initial state of SHA-512, one block (R123). -/
theorem ivSha512_256_eq_digest : (initialChain .sha512_256).toList =
    (chainOver .sha512 ((initialChain .sha512).map (· ^^^ 0xa5a5a5a5a5a5a5a5))
      (wholeBlocks .sha512 ([0x53, 0x48, 0x41, 0x2d, 0x35, 0x31, 0x32, 0x2f, 0x32, 0x35, 0x36] ++
        padding .sha512 11 11))).toList := by
  decide +kernel

/-- Settles O48: the roots by the check on the table of primes, SHA-224's as the low halves of SHA-384's. -/
theorem romConstantsAreRoots : Obligations.RomConstantsAreRoots := by
  refine ⟨fun i hi => isRootFraction_nth_prime (by omega) (k32_hasSmallRoot i hi),
    fun i hi => isRootFraction_nth_prime hi (k64_hasSmallRoot i hi), k64_high_eq_k32,
    fun j => isRootFraction_nth_prime (by omega) (ivSha256_hasSmallRoot j),
    fun j => isRootFraction_nth_prime (by omega) (ivSha512_hasSmallRoot j),
    fun j => isRootFraction_nth_prime (by omega) (ivSha384_hasSmallRoot j), fun j => ?_, fun name hname => ?_⟩
  · refine ⟨(ivSha384.get j).toNat / 2 ^ 32, Nat.div_lt_of_lt_mul (ivSha384.get j).isLt, ?_⟩
    have hroot := isRootFraction_nth_prime (i := j + 8) (by omega) (ivSha384_hasSmallRoot j)
    rwa [ivSha384_eq_high_add_ivSha224 j] at hroot
  · rw [hname, ivSha512_256_eq_digest]

end Sys2Proof.Machine
end
